-- ==== Sys2Proof/Word.lean ====
section
/-! DEFINITION. The value types of the T-AES core: bytes, 32-bit words, 16-byte blocks and byte arrays
(00_scope.md R7, R9, R10, R12). Only the types and their plainest accessors stand here. -/

namespace Sys2Proof

/-- A byte, and so also an element of GF(2^8) (00_scope.md R14). -/
abbrev Byte := BitVec 8

/-- A 32-bit word: a register value, a command word, or a word of the key schedule (00_scope.md R12). -/
abbrev Word := BitVec 32

/-- A block, a round key or a tweak: 16 bytes, byte 0 first (00_scope.md R7, R10). -/
abbrev Block := Vector Byte 16

/-- The master-key input buffer: 32 bytes, byte 0 first (10_state.md R40). -/
abbrev KeyBuffer := Vector Byte 32

/-- The round-key store: 15 round keys of 16 bytes (00_scope.md R7, 10_state.md R43). -/
abbrev RoundKeys := Vector Block 15

/-- Byte `i` of a byte array, `B[i]` in the spec's notation (00_scope.md R10). No rule reads past an array's end;
the accessor is total and answers 0 there. -/
def byteAt {n : Nat} (v : Vector Byte n) (i : Nat) : Byte := v[i]?.getD 0

/-- An array of `n` zero bytes (`0^128` for a block, `0^256` for the key buffer). -/
def zeroBytes (n : Nat) : Vector Byte n := Vector.replicate n 0

/-- The round-key store with every byte zero (10_state.md R43, R48). -/
def zeroRoundKeys : RoundKeys := Vector.replicate 15 (zeroBytes 16)

end Sys2Proof
end

