-- ==== Sys2Proof/Config.lean ====
section
/-! DEFINITION. What is fixed for one instance of the block (00_scope.md R8) and the free values of the model:
opaque constants with no body, so that no proof can see what they are. -/

namespace Sys2Proof.Config

/-- `ID_VALUE`, ASCII "TAES" (00_scope.md R8, 10_state.md R31). -/
def idValue : Word := 0x54414553#32

/-- The size of the register window in bytes (00_scope.md R8, 20_memory.md R70). -/
def windowSize : Nat := 0x100

/-- OPEN parameter (00_scope.md R8, 92_eei_decisions.md D2): which 0x100-byte slot of the host's address space
holds the register window. Nothing is known of it. -/
opaque windowSlot : Nat

/-- `TAES_BASE`, the byte address of the register window, a multiple of 0x100 by construction
(00_scope.md R8, 20_memory.md R70). -/
def taesBase : Nat := windowSize * windowSlot

/-- The free values: the `k`-th value drawn where the spec says "unspecified": the data of a TWEAK or BLK read
while BUSY = 1 (20_memory.md R76) and the data of a read that got a bus error (20_memory.md R72); and, for the host's `RD`
past the end of the window, what the platform answers (notes/assumptions/15.md).
It has no body; a statement about a draw holds for every value. See notes/assumptions/2.md. -/
opaque freeValue : Nat → BitVec 64

end Sys2Proof.Config
end

