-- ==== Sys2Proof/Machine/State.lean ====
section
/-! DEFINITION. The state of the T-AES core (10_state.md R30-R48), the events of its environment, and the reasons a step
can stop. The registers ID and INFO and the constant tables hold no state of their own: ID and the tables are constants
(R31, R45) and INFO is computed from KSIZE and KEYED (R38). -/

namespace Sys2Proof.Machine

/-- A phase of the sequencer within one command (10_state.md R44). -/
inductive Phase where
  /-- INIT: computing expanded word `i`. -/
  | kexp (i : Nat)
  /-- ENCRYPT, DECRYPT: the first AddRoundKey. -/
  | initial
  /-- ENCRYPT, DECRYPT: round `r`. -/
  | round (r : Nat)
  /-- ENCRYPT, DECRYPT: the last round. -/
  | final
  /-- The single phase of every other command. -/
  | one
  deriving DecidableEq, Repr

/-- SEQ, the sequencer's state: `IDLE` or `RUN(w, ph)` (10_state.md R44). -/
inductive Seq where
  | idle
  | run (w : Word) (ph : Phase)
  deriving DecidableEq, Repr

/-- The width of a host access (20_memory.md R72). -/
inductive Width where
  | w8 | w16 | w32 | w64
  deriving DecidableEq, Repr

/-- What a host access does. The data of a write is carried in the low bits of 64, as many as the access is wide. -/
inductive AccessKind where
  | read
  | write (data : BitVec 64)
  deriving DecidableEq, Repr

/-- One access of a host, at a byte address of the host's address space (20_memory.md R70, R72). -/
structure Access where
  addr : Nat
  width : Width
  kind : AccessKind
  deriving DecidableEq, Repr

/-- One entry of the total order of host accesses and block steps (20_memory.md R80), or a reset. -/
inductive Event where
  /-- A host access reaches the bus. -/
  | access (a : Access)
  /-- The sequencer walks to the next phase of the running command (10_state.md R44). -/
  | advance
  /-- The running command completes (60_exceptions.md R276). -/
  | complete
  /-- The platform resets the block, with or without a host access at the same moment (70_reset_and_hazards.md R300). -/
  | reset (coincident : Option Access)
  deriving DecidableEq, Repr

/-- What the bus answers to a host access (20_memory.md R72-R76). -/
inductive Response where
  /-- The data of a 32-bit read. -/
  | data (v : Word)
  /-- A 32-bit write was taken by the bus, whether or not the block dropped it. -/
  | written
  /-- A bus error on a read, with its unspecified data (20_memory.md R72). -/
  | readError (v : BitVec 64)
  /-- A bus error on a write (20_memory.md R72). -/
  | writeError
  deriving DecidableEq, Repr

/-- The state. The first eleven fields are the block's (10_state.md R30; the 32-bit STATUS register is the four fields
`busy`, `keyed`, `werr` and `err`, its other bits read 0). The last three are the model's own: the environment's future,
the answers given so far, and the count of free values drawn. -/
structure State where
  /-- CTRL: the last accepted command word (10_state.md R32). -/
  ctrl : Word
  /-- STATUS.BUSY (10_state.md R34). -/
  busy : Bool
  /-- STATUS.KEYED (10_state.md R35). -/
  keyed : Bool
  /-- STATUS.WERR (10_state.md R36). -/
  werr : Bool
  /-- STATUS.ERR (10_state.md R37). -/
  err : BitVec 4
  /-- KSIZE: the key size of the context in bytes (10_state.md R39). -/
  ksize : BitVec 6
  /-- KEY: the master-key input buffer (10_state.md R40). -/
  key : KeyBuffer
  /-- TWEAK (10_state.md R41). -/
  tweak : Block
  /-- BLK (10_state.md R42). -/
  blk : Block
  /-- RK[0..14]: the round-key store (10_state.md R43). -/
  rk : RoundKeys
  /-- SEQ: the sequencer (10_state.md R44). -/
  seq : Seq
  /-- MODEL'S OWN: the events still to come, earliest first (20_memory.md R80; notes/assumptions/1.md). -/
  pending : List Event
  /-- MODEL'S OWN: the bus answers given so far, newest first (notes/assumptions/3.md). -/
  responses : List Response
  /-- MODEL'S OWN: how many free values have been drawn (20_memory.md R72, R76; notes/assumptions/2.md). -/
  draws : Nat
  deriving DecidableEq, Repr

/-- The faults of the machine: none. A command's error is a value in STATUS.ERR and never stops the block
(60_exceptions.md R278); a bus error is an answer to the host and leaves the block running (20_memory.md R72). -/
inductive Fault where
  deriving DecidableEq, Repr

/-- The refusals of the machine. -/
inductive Refusal where
  /-- Raised only by an arm of `exec` that has no meaning yet; no arm is left so. Safe: the run stops. -/
  | notModelled (mnemonic : String)
  /-- Raised by `step` when a host access coincides with a reset: the spec gives the access no effect and forbids it to
  the platform (70_reset_and_hazards.md R300, 93_implementation_defined.md U3). Safe: the run stops. -/
  | accessCoincidesWithReset
  deriving DecidableEq, Repr

/-- The state right after reset (10_state.md R48). The model's own fields start empty (notes/assumptions/1.md to 3.md). -/
def State.reset : State where
  ctrl := 0
  busy := false
  keyed := false
  werr := false
  err := 0
  ksize := 0
  key := zeroBytes 32
  tweak := zeroBytes 16
  blk := zeroBytes 16
  rk := zeroRoundKeys
  seq := .idle
  pending := []
  responses := []
  draws := 0

end Sys2Proof.Machine
end

