-- ==== Sys2Proof/Machine/Flags.lean ====
section
/-! DEFINITION. Result codes, STATUS and INFO (10_state.md R33-R38, 60_exceptions.md R270), and the parameters that a key
size fixes (00_scope.md R6). -/

namespace Sys2Proof.Machine

/-- The result codes (60_exceptions.md R270). -/
inductive ErrCode where
  | ok | invalidKeySize | notKeyed | illegalCmd | indexRange
  deriving DecidableEq, Repr

/-- The number of a result code in STATUS.ERR (60_exceptions.md R270). -/
def errNumber : ErrCode → BitVec 4
  | .ok => 0
  | .invalidKeySize => 1
  | .notKeyed => 2
  | .illegalCmd => 3
  | .indexRange => 4

/-- The key sizes the block supports, in bytes (00_scope.md R6). -/
def validKeySize (ksz : Nat) : Bool := ksz == 16 || ksz == 24 || ksz == 32

/-- `Nk`, the key's length in 32-bit words (00_scope.md R6). -/
def keyWordCount (ksz : Nat) : Nat := ksz / 4

/-- `Nr`, the number of rounds: `Nk + 6`, so 10, 12 or 14 (00_scope.md R6, 41_key_schedule.md R145). -/
def roundCount (ksz : Nat) : Nat := keyWordCount ksz + 6

/-- `TR`, the tweak round, of `nr` rounds: 5, 6 or 7 (00_scope.md R6; INDEX.md "TR = Nr/2"). -/
def tweakRound (nr : Nat) : Nat := nr / 2

/-- `Nr` of the loaded context, from KSIZE (10_state.md R38, R39). -/
def contextRounds (s : State) : Nat := roundCount s.ksize.toNat

/-- The value of STATUS: ERR in bits 7:4, WERR in bit 2, KEYED in bit 1, BUSY in bit 0, all other bits 0
(10_state.md R33, 20_memory.md R74). -/
def statusWord (s : State) : Word :=
  0#24 ++ s.err ++ 0#1 ++ BitVec.ofBool s.werr ++ BitVec.ofBool s.keyed ++ BitVec.ofBool s.busy

/-- The value of INFO: NK in bits 19:16, TR in 15:12, NR in 11:8, KSIZE in 7:0, and 0 while KEYED = 0
(10_state.md R38). -/
def infoWord (s : State) : Word :=
  if s.keyed then
    0#12 ++ BitVec.ofNat 4 (keyWordCount s.ksize.toNat) ++ BitVec.ofNat 4 (tweakRound (contextRounds s))
      ++ BitVec.ofNat 4 (contextRounds s) ++ s.ksize.setWidth 8
  else 0

/-- A write to STATUS: writing 1 to bit 2 clears WERR, and every other bit is ignored (10_state.md R33, R36). -/
def writeStatus (v : Word) (s : State) : State :=
  { s with werr := if v.getLsbD 2 then false else s.werr }

/-- A write dropped because BUSY = 1: it sets WERR and changes nothing else (10_state.md R36). -/
def dropWrite (s : State) : State := { s with werr := true }

end Sys2Proof.Machine
end

