-- ==== Sys2Proof/Machine/Operands.lean ====
section
/-! DEFINITION. Operand forms: the byte lanes of the bus (20_memory.md R75), the register map (R70), the big-endian words
of the key schedule (00_scope.md R12) and the effective round key (43_cipher_core.md R191). -/

namespace Sys2Proof.Machine

/-- Bits `[8k+7:8k]` of a word: byte lane `k` (20_memory.md R75). -/
def laneByte (w : Word) (k : Nat) : Byte := w.extractLsb' (8 * k) 8

/-- `A[4j] | A[4j+1]<<8 | A[4j+2]<<16 | A[4j+3]<<24`, what a read of word `j` of a byte array returns (20_memory.md R75). -/
def readLanes {n : Nat} (a : Vector Byte n) (j : Nat) : Word :=
  byteAt a (4 * j + 3) ++ byteAt a (4 * j + 2) ++ byteAt a (4 * j + 1) ++ byteAt a (4 * j)

/-- `A[4j+k] <- v[8k+7:8k]` for k = 0..3, what a write of word `j` of a byte array does (20_memory.md R75). -/
def writeLanes {n : Nat} (a : Vector Byte n) (j : Nat) (v : Word) : Vector Byte n :=
  Vector.ofFn fun i => if i.val / 4 = j then laneByte v (i.val % 4) else a[i]

/-- A register of the window (20_memory.md R70). -/
inductive Reg where
  | id | ctrl | status | info
  | key (j : Nat)
  | tweak (j : Nat)
  | blk (j : Nat)
  | reserved
  deriving DecidableEq, Repr

/-- The register at a 4-aligned offset of the window: the register map (20_memory.md R70). -/
def regAt (off : Nat) : Reg :=
  if off = 0x00 then .id
  else if off = 0x04 then .ctrl
  else if off = 0x08 then .status
  else if off = 0x0C then .info
  else if off < 0x20 then .reserved
  else if off < 0x40 then .key ((off - 0x20) / 4)
  else if off < 0x50 then .tweak ((off - 0x40) / 4)
  else if off < 0x60 then .blk ((off - 0x50) / 4)
  else .reserved

/-- The offset within the window of a byte address of the host's address space, if it lies in the window
(20_memory.md R70). -/
def windowOffset (addr : Nat) : Option Nat :=
  if Config.taesBase ≤ addr ∧ addr < Config.taesBase + Config.windowSize then some (addr - Config.taesBase) else none

/-- The value a read of a register returns where the spec defines it (20_memory.md R74; KEY reads 0, 10_state.md R40). -/
def regValue (r : Reg) (s : State) : Word :=
  match r with
  | .id => Config.idValue
  | .ctrl => s.ctrl
  | .status => statusWord s
  | .info => infoWord s
  | .key _ => 0
  | .tweak j => readLanes s.tweak j
  | .blk j => readLanes s.blk j
  | .reserved => 0

/-- The registers whose reads are unspecified while BUSY = 1 (20_memory.md R76). -/
def Reg.unspecifiedWhileBusy : Reg → Bool
  | .tweak _ | .blk _ => true
  | .id | .ctrl | .status | .info | .key _ | .reserved => false

/-- The registers whose writes are dropped while BUSY = 1 (10_state.md R36, 20_memory.md R73). -/
def Reg.writeDroppedWhileBusy : Reg → Bool
  | .ctrl | .key _ | .tweak _ | .blk _ => true
  | .id | .status | .info | .reserved => false

/-- The four bytes as one big-endian word, `b0` first (00_scope.md R12, 41_key_schedule.md R142). -/
def wordOfBytes (b0 b1 b2 b3 : Byte) : Word := b0 ++ b1 ++ b2 ++ b3

/-- Byte `k` of a word in big-endian order, `be32(w)[k]` (41_key_schedule.md R144). -/
def wordByte (w : Word) (k : Nat) : Byte := w.extractLsb' (8 * (3 - k)) 8

/-- Key word `j` of the key buffer, read big-endian (00_scope.md R12, 41_key_schedule.md R141). -/
def keyWord (key : KeyBuffer) (j : Nat) : Word :=
  wordOfBytes (byteAt key (4 * j)) (byteAt key (4 * j + 1)) (byteAt key (4 * j + 2)) (byteAt key (4 * j + 3))

/-- `a ⊕ b`, bytewise (00_scope.md R9). It is `AddRoundKey` of 42_round_primitives.md R169. -/
def addRoundKey (b k : Block) : Block := Vector.ofFn fun i => b[i] ^^^ k[i]

/-- `RK[j]` (10_state.md R43). No rule reads past `RK[14]`; the accessor is total. -/
def roundKeyAt (rk : RoundKeys) (j : Nat) : Block := rk[j]?.getD (zeroBytes 16)

/-- `EffRK(j)`, the effective round key of round `j` of `nr`: the tweak enters at `j = TR` only
(43_cipher_core.md R191). -/
def effRoundKey (rk : RoundKeys) (tweak : Block) (nr j : Nat) : Block :=
  if j = tweakRound nr then addRoundKey (roundKeyAt rk j) tweak else roundKeyAt rk j

end Sys2Proof.Machine
end

