-- ==== Sys2Proof/Syntax.lean ====
section
/-! DEFINITION. The commands of the block: one constructor per row of spec/opcode_table.json (30_encoding.md R105, R106).
A constructor carries only the fields its command uses (30_encoding.md R103). -/

namespace Sys2Proof

/-- A command. Operands as 30_encoding.md R102 assembles them: `ksz` a byte count, `tz` a bit, `idx` a round-key
index, `gfc` an element of GF(2^8). KEY, TWEAK, BLK and RK are implicit. -/
inductive Instr where
  /-- CMD 0x0 (44_context_ops.md R220). -/
  | nop
  /-- CMD 0x1, `INIT ksz=<n>[, tz=1]` (41_key_schedule.md R145, R146). -/
  | init (ksz : Nat) (tz : Bool)
  /-- CMD 0x2 (43_cipher_core.md R192). -/
  | encrypt
  /-- CMD 0x3 (43_cipher_core.md R194). -/
  | decrypt
  /-- CMD 0x4 (44_context_ops.md R221). -/
  | cleanup
  /-- CMD 0x5 (44_context_ops.md R222). -/
  | tweakInc
  /-- CMD 0x8 (42_round_primitives.md R170). -/
  | subBytes
  /-- CMD 0x9 (42_round_primitives.md R171). -/
  | invSubBytes
  /-- CMD 0xA (42_round_primitives.md R172). -/
  | shiftRows
  /-- CMD 0xB (42_round_primitives.md R173). -/
  | invShiftRows
  /-- CMD 0xC (42_round_primitives.md R174). -/
  | mixColumns
  /-- CMD 0xD (42_round_primitives.md R175). -/
  | invMixColumns
  /-- CMD 0xE, `ADDRK idx=<n>` (42_round_primitives.md R176). -/
  | addRk (idx : Nat)
  /-- CMD 0xF, `GFMUL gfc=0x<hh>` (40_gf_arith.md R125). -/
  | gfMul (gfc : Byte)
  /-- CMD 0x6 (`odd = false`) and CMD 0x7 (`odd = true`): the reserved opcodes (30_encoding.md R106). -/
  | reserved67 (odd : Bool)
  deriving DecidableEq, Repr

end Sys2Proof
end

