-- ==== Sys2Proof/WellFormed.lean ====
section
/-! DEFINITION. Which command terms have an encoding: the numeric operands must fit their fields (30_encoding.md R101, R102).
A bad key size or index is not ill-formed: INIT and ADDRK reject those at completion (30_encoding.md R107). -/

namespace Sys2Proof

/-- The operands fit the fields of 30_encoding.md R101: KSZ has 8 bits, IDX has 4; the other operands fit by
their types. -/
def Instr.wellFormed : Instr → Bool
  | .init ksz _ => decide (ksz < 256)
  | .addRk idx => decide (idx < 16)
  | .nop | .encrypt | .decrypt | .cleanup | .tweakInc => true
  | .subBytes | .invSubBytes | .shiftRows | .invShiftRows | .mixColumns | .invMixColumns => true
  | .gfMul _ => true
  | .reserved67 _ => true

end Sys2Proof
end

