-- ==== Sys2Proof/Decode.lean ====
section
/-! DEFINITION. The command word: its fields, the decoder and the encoder (30_encoding.md). The unit of decoding is the
one 32-bit word that the host writes to CTRL (R100); every word decodes (R107). -/

namespace Sys2Proof

/-- `w[3:0]`, the opcode field CMD (30_encoding.md R101). -/
def fieldCmd (w : Word) : BitVec 4 := w.extractLsb' 0 4

/-- `idx := w[7:4]`, an unsigned round-key index (30_encoding.md R101, R102). -/
def fieldIdx (w : Word) : Nat := (w.extractLsb' 4 4).toNat

/-- `ksz := w[15:8]`, an unsigned byte count (30_encoding.md R101, R102). -/
def fieldKsz (w : Word) : Nat := (w.extractLsb' 8 8).toNat

/-- `tz := w[16]` (30_encoding.md R101, R102). -/
def fieldTz (w : Word) : Bool := w.getLsbD 16

/-- `gfc := w[31:24]`, an element of GF(2^8) (30_encoding.md R101, R102). -/
def fieldGfc (w : Word) : Byte := w.extractLsb' 24 8

/-- The decoder (30_encoding.md R105, R106): the four bits of CMD, most significant first, select the command;
a command's unused fields and the reserved bits 23:17 are ignored (R103, R104). -/
def decode (w : Word) : Instr :=
  match w.getLsbD 3, w.getLsbD 2, w.getLsbD 1, w.getLsbD 0 with
  | false, false, false, false => .nop
  | false, false, false, true => .init (fieldKsz w) (fieldTz w)
  | false, false, true, false => .encrypt
  | false, false, true, true => .decrypt
  | false, true, false, false => .cleanup
  | false, true, false, true => .tweakInc
  | false, true, true, odd => .reserved67 odd
  | true, false, false, false => .subBytes
  | true, false, false, true => .invSubBytes
  | true, false, true, false => .shiftRows
  | true, false, true, true => .invShiftRows
  | true, true, false, false => .mixColumns
  | true, true, false, true => .invMixColumns
  | true, true, true, false => .addRk (fieldIdx w)
  | true, true, true, true => .gfMul (fieldGfc w)

/-- Why a row of bits is no command word. -/
inductive DecodeError where
  /-- More than 32 bits: the one format is a single 32-bit word (30_encoding.md R100). -/
  | longerThanOneWord
  deriving DecidableEq, Repr

/-- Decoding a row of `nbits` bits with value `w` (bits above `nbits` are 0), rejecting by name what is
not one command word (30_encoding.md R100). -/
def decodeBits (nbits w : Nat) : Except DecodeError Instr :=
  if nbits ≤ 32 then .ok (decode (BitVec.ofNat 32 (w % 2 ^ nbits))) else .error .longerThanOneWord

/-- The instruction the decoder reads from a row of the opcode table, `none` where it refuses. -/
def decodeTableWord (nbits w : Nat) : Option Instr :=
  match decodeBits nbits w with
  | .ok i => some i
  | .error _ => none

/-- The opcode number of a command (30_encoding.md R105, R106). -/
def opcode : Instr → BitVec 4
  | .nop => 0x0#4
  | .init _ _ => 0x1#4
  | .encrypt => 0x2#4
  | .decrypt => 0x3#4
  | .cleanup => 0x4#4
  | .tweakInc => 0x5#4
  | .subBytes => 0x8#4
  | .invSubBytes => 0x9#4
  | .shiftRows => 0xA#4
  | .invShiftRows => 0xB#4
  | .mixColumns => 0xC#4
  | .invMixColumns => 0xD#4
  | .addRk _ => 0xE#4
  | .gfMul _ => 0xF#4
  | .reserved67 odd => if odd then 0x7#4 else 0x6#4

/-- The word `gfc<<24 | tz<<16 | ksz<<8 | idx<<4 | CMD` of 30_encoding.md R108, laid out by R101 with the
reserved bits 23:17 zero. -/
def assemble (gfc : Byte) (tz : Bool) (ksz idx : Nat) (cmd : BitVec 4) : Word :=
  gfc ++ 0#7 ++ BitVec.ofBool tz ++ BitVec.ofNat 8 ksz ++ BitVec.ofNat 4 idx ++ cmd

/-- The encoder: the assembled command word, an omitted operand 0 (30_encoding.md R108). -/
def encode (i : Instr) : Word :=
  match i with
  | .init ksz tz => assemble 0 tz ksz 0 (opcode i)
  | .addRk idx => assemble 0 false 0 idx (opcode i)
  | .gfMul gfc => assemble gfc false 0 0 (opcode i)
  | .nop | .encrypt | .decrypt | .cleanup | .tweakInc => assemble 0 false 0 0 (opcode i)
  | .subBytes | .invSubBytes | .shiftRows | .invShiftRows => assemble 0 false 0 0 (opcode i)
  | .mixColumns | .invMixColumns => assemble 0 false 0 0 (opcode i)
  | .reserved67 _ => assemble 0 false 0 0 (opcode i)

end Sys2Proof
end

