-- ==== Sys2Proof/Machine/Sequencer.lean ====
section
/-! DEFINITION. The phases a command walks (10_state.md R44, 70_reset_and_hazards.md R316). -/

namespace Sys2Proof.Machine

/-- The rounds 1 .. Nr-1, in order (10_state.md R44). -/
def innerRounds (nr : Nat) : List Nat := List.range' 1 (nr - 1)

/-- The phases of a command, in the order it walks them, for a context with KEYED and key size `ksize`
(10_state.md R44). DESIGN CHOICE (notes/assumptions/5.md): an INIT with an illegal size, and an ENCRYPT or DECRYPT
without a context, have no words or rounds to walk and have the single phase `ONE`. -/
def phases (i : Instr) (keyed : Bool) (ksize : Nat) : List Phase :=
  match i with
  | .init ksz _ =>
    if validKeySize ksz then
      (List.range' (keyWordCount ksz) (4 * (roundCount ksz + 1) - keyWordCount ksz)).map .kexp
    else [.one]
  | .encrypt =>
    if keyed then .initial :: (innerRounds (roundCount ksize)).map .round ++ [.final] else [.one]
  | .decrypt =>
    if keyed then .initial :: (innerRounds (roundCount ksize)).reverse.map .round ++ [.final] else [.one]
  | .nop | .cleanup | .tweakInc | .addRk _ | .gfMul _ | .reserved67 _ => [.one]
  | .subBytes | .invSubBytes | .shiftRows | .invShiftRows | .mixColumns | .invMixColumns => [.one]

/-- The first phase of the accepted command word `w` (60_exceptions.md R276). -/
def firstPhase (w : Word) (s : State) : Phase :=
  (phases (decode w) s.keyed s.ksize.toNat).headD .one

/-- The phase after `ph` in a walk, if there is one. -/
def phaseAfter (ph : Phase) : List Phase → Option Phase
  | [] => none
  | [_] => none
  | a :: b :: rest => if a = ph then some b else phaseAfter ph (b :: rest)

/-- The sequencer walks to the next phase of the running command; in the last phase, and when idle, it stays.
No other state changes: the phases are not observable (10_state.md R44). -/
def advance (s : State) : State :=
  match s.seq with
  | .idle => s
  | .run w ph =>
    match phaseAfter ph (phases (decode w) s.keyed s.ksize.toNat) with
    | some next => { s with seq := .run w next }
    | none => s

end Sys2Proof.Machine
end

