-- ==== Sys2Proof/Machine/Ops.lean ====
section
/-! DEFINITION. The shared operations: acceptance and the end of a command (60_exceptions.md R271, R276), the host's
accesses (20_memory.md R72-R76) and reset (70_reset_and_hazards.md R300). The block has no traps (60_exceptions.md R278);
its analogue of taking one is `retire`, which reports the result code and frees the block. -/

namespace Sys2Proof.Machine

/-- The outcome type of every meaning. -/
abbrev Result := Host.Outcome State Fault Refusal

/-- Acceptance of the command word `w` (60_exceptions.md R276): CTRL keeps the word, BUSY is set, ERR is cleared, and
SEQ enters the first phase. -/
def accept (w : Word) (s : State) : State :=
  { s with ctrl := w, busy := true, err := 0, seq := .run w (firstPhase w s) }

/-- The end of a command with result code `code` (60_exceptions.md R271, R276): ERR takes the code, BUSY is cleared and
SEQ is IDLE. -/
def retired (code : ErrCode) (s : State) : State :=
  { s with err := errNumber code, busy := false, seq := .idle }

/-- A command ends with result code `code` (60_exceptions.md R276). `fail E` of a command rule is this with the state
unchanged before it (60_exceptions.md R271). -/
def retire (code : ErrCode) (s : State) : Result := .next (retired code s)

/-- Zero the context: KEY, RK, TWEAK, KSIZE and KEYED (41_key_schedule.md R146, 44_context_ops.md R221). -/
def clearContext (s : State) : State :=
  { s with key := zeroBytes 32, rk := zeroRoundKeys, tweak := zeroBytes 16, ksize := 0, keyed := false }

/-- The bus answers a host access. -/
def respond (r : Response) (s : State) : State := { s with responses := r :: s.responses }

/-- The events still to come are `rest`. -/
def withPending (rest : List Event) (s : State) : State := { s with pending := rest }

/-- The next free value (20_memory.md R72, R76). -/
def drawnValue (s : State) : BitVec 64 := Config.freeValue s.draws

/-- One more free value has been drawn. -/
def countDraw (s : State) : State := { s with draws := s.draws + 1 }

/-- The number of data bits of an access. -/
def widthBits : Width → Nat
  | .w8 => 8
  | .w16 => 16
  | .w32 => 32
  | .w64 => 64

/-- A 32-bit read at a 4-aligned offset of the window (20_memory.md R74, R76). It changes nothing in the block; while
BUSY = 1 a TWEAK or BLK read draws a free value. -/
def busRead (off : Nat) (s : State) : State :=
  if s.busy ∧ (regAt off).unspecifiedWhileBusy then
    respond (.data ((drawnValue s).setWidth 32)) (countDraw s)
  else respond (.data (regValue (regAt off) s)) s

/-- What a write of `v` to a register does when it is not dropped (20_memory.md R73). -/
def writeReg (r : Reg) (v : Word) (s : State) : State :=
  match r with
  | .ctrl => accept v s
  | .status => writeStatus v s
  | .key j => { s with key := writeLanes s.key j v }
  | .tweak j => { s with tweak := writeLanes s.tweak j v }
  | .blk j => { s with blk := writeLanes s.blk j v }
  | .id | .info | .reserved => s

/-- A 32-bit write at a 4-aligned offset of the window (20_memory.md R73): dropped while BUSY = 1 where
10_state.md R36 says so. The bus answers a dropped write as any other (notes/assumptions/4.md, DEDUCED). -/
def busWrite (off : Nat) (v : Word) (s : State) : State :=
  respond .written
    (if s.busy ∧ (regAt off).writeDroppedWhileBusy then dropWrite s else writeReg (regAt off) v s)

/-- An access of another width or alignment: a bus error to the host, nothing else changes, and a read's data is
unspecified (20_memory.md R72). -/
def busError (a : Access) (s : State) : State :=
  match a.kind with
  | .read => respond (.readError (((drawnValue s).setWidth (widthBits a.width)).setWidth 64)) (countDraw s)
  | .write _ => respond .writeError s

/-- One host access (20_memory.md R70, R72). An access whose address lies outside the window is not the block's: it
belongs to the platform, and the block does not see it. -/
def busAccess (a : Access) (s : State) : State :=
  match windowOffset a.addr with
  | none => s
  | some off =>
    if a.width = .w32 ∧ off % 4 = 0 then
      match a.kind with
      | .read => busRead off s
      | .write data => busWrite off (data.setWidth 32) s
    else busError a s

/-- The block is reset (70_reset_and_hazards.md R300): every piece of its state takes the reset value of 10_state.md R48,
and a command in progress is abandoned. The model's own fields, which are the environment's, stay. -/
def resetBlock (s : State) : State :=
  { State.reset with pending := s.pending, responses := s.responses, draws := s.draws }

end Sys2Proof.Machine
end

