-- ==== Sys2Proof/Machine/GfArith.lean ====
section
/-! DEFINITION. The GF(2^8) arithmetic unit and the GFMUL command (40_gf_arith.md). -/

namespace Sys2Proof.Machine

/-- Multiplication by `{02}` (40_gf_arith.md R121). -/
def xtime (a : Byte) : Byte :=
  let t := a <<< 1
  if a.getLsbD 7 then t ^^^ 0x1B#8 else t

/-- The shift-and-add loop of 40_gf_arith.md R122 for the bits of `b` from bit `i` on, `n` of them: `r` is the sum so
far and `p` is `a` doubled `i` times. -/
def gmulFrom (b : Byte) : (n i : Nat) → (r p : Byte) → Byte
  | 0, _, r, _ => r
  | n + 1, i, r, p => gmulFrom b n (i + 1) (if b.getLsbD i then r ^^^ p else r) (xtime p)

/-- `a • b` in GF(2^8) (40_gf_arith.md R122). -/
def gmul (a b : Byte) : Byte := gmulFrom b 8 0 0 a

/-- Every byte of a block multiplied by `c` (40_gf_arith.md R125). -/
def gmulBlock (b : Block) (c : Byte) : Block := Vector.ofFn fun i => gmul b[i] c

/-- GFMUL (40_gf_arith.md R125). -/
def execGfMul (gfc : Byte) (s : State) : Result :=
  retire .ok { s with blk := gmulBlock s.blk gfc }

end Sys2Proof.Machine
end

