-- ==== Sys2Proof/Machine/RoundPrimitives.lean ====
section
/-! DEFINITION. The round primitives and their commands (42_round_primitives.md). A block's byte `i` is the element of the
state matrix at row `i mod 4`, column `i div 4` (00_scope.md R11). -/

namespace Sys2Proof.Machine

/-- The rows of the SBOX table, high nibble 0 to F, each row's bytes in the order of the low nibble (42_round_primitives.md R161). -/
def sboxRows : List (BitVec 128) := [
  0x637c777bf26b6fc53001672bfed7ab76#128,
  0xca82c97dfa5947f0add4a2af9ca472c0#128,
  0xb7fd9326363ff7cc34a5e5f171d83115#128,
  0x04c723c31896059a071280e2eb27b275#128,
  0x09832c1a1b6e5aa0523bd6b329e32f84#128,
  0x53d100ed20fcb15b6acbbe394a4c58cf#128,
  0xd0efaafb434d338545f9027f503c9fa8#128,
  0x51a3408f929d38f5bcb6da2110fff3d2#128,
  0xcd0c13ec5f974417c4a77e3d645d1973#128,
  0x60814fdc222a908846eeb814de5e0bdb#128,
  0xe0323a0a4906245cc2d3ac629195e479#128,
  0xe7c8376d8dd54ea96c56f4ea657aae08#128,
  0xba78252e1ca6b4c6e8dd741f4bbd8b8a#128,
  0x703eb5664803f60e613557b986c11d9e#128,
  0xe1f8981169d98e949b1e87e9ce5528df#128,
  0x8ca1890dbfe6426841992d0fb054bb16#128]

/-- The rows of the INV_SBOX table, laid out as those of SBOX (42_round_primitives.md R162). -/
def invSboxRows : List (BitVec 128) := [
  0x52096ad53036a538bf40a39e81f3d7fb#128,
  0x7ce339829b2fff87348e4344c4dee9cb#128,
  0x547b9432a6c2233dee4c950b42fac34e#128,
  0x082ea16628d924b2765ba2496d8bd125#128,
  0x72f8f66486689816d4a45ccc5d65b692#128,
  0x6c704850fdedb9da5e154657a78d9d84#128,
  0x90d8ab008cbcd30af7e45805b8b34506#128,
  0xd02c1e8fca3f0f02c1afbd0301138a6b#128,
  0x3a9111414f67dcea97f2cfcef0b4e673#128,
  0x96ac7422e7ad3585e2f937e81c75df6e#128,
  0x47f11a711d29c5896fb7620eaa18be1b#128,
  0xfc563e4bc6d279209adbc0fe78cd5af4#128,
  0x1fdda8338807c731b11210592780ec5f#128,
  0x60517fa919b54a0d2de57a9f93c99cef#128,
  0xa0e03b4dae2af5b0c8ebbb3c83539961#128,
  0x172b047eba77d626e169146355210c7d#128]

/-- The entry of a table for a byte: row by the high nibble, column by the low nibble (42_round_primitives.md R161). -/
def tableEntry (rows : List (BitVec 128)) (a : Byte) : Byte :=
  (rows.getD (a.toNat / 16) 0).extractLsb' (8 * (15 - a.toNat % 16)) 8

/-- `SBOX[a]` (42_round_primitives.md R161). -/
def sbox (a : Byte) : Byte := tableEntry sboxRows a

/-- `INV_SBOX[a]` (42_round_primitives.md R162). -/
def invSbox (a : Byte) : Byte := tableEntry invSboxRows a

/-- `SubBytes` (42_round_primitives.md R163). -/
def subBytes (b : Block) : Block := Vector.ofFn fun i => sbox b[i]

/-- `InvSubBytes` (42_round_primitives.md R164). -/
def invSubBytes (b : Block) : Block := Vector.ofFn fun i => invSbox b[i]

/-- `s(r,c) = B[r + 4c]`, the element of the state matrix at row `r`, column `c` (00_scope.md R11). -/
def matrixAt (b : Block) (r c : Nat) : Byte := byteAt b (r + 4 * c)

/-- `ShiftRows`: row `r` rotates left by `r` (42_round_primitives.md R165). -/
def shiftRows (b : Block) : Block :=
  Vector.ofFn fun i => matrixAt b (i.val % 4) ((i.val / 4 + i.val % 4) % 4)

/-- `InvShiftRows`: row `r` rotates right by `r` (42_round_primitives.md R166). Right by `r` is left by `4 - r`. -/
def invShiftRows (b : Block) : Block :=
  Vector.ofFn fun i => matrixAt b (i.val % 4) ((i.val / 4 + (4 - i.val % 4)) % 4)

/-- Element `r` of a transformed column: `⊕_{k=0..3} M[k] • a_((r+k) mod 4)` with `M = (m0, m1, m2, m3)`
(42_round_primitives.md R167). -/
def circulant (m0 m1 m2 m3 : Byte) (column : Nat → Byte) (r : Nat) : Byte :=
  gmul (column (r % 4)) m0 ^^^ gmul (column ((r + 1) % 4)) m1
    ^^^ gmul (column ((r + 2) % 4)) m2 ^^^ gmul (column ((r + 3) % 4)) m3

/-- `MixColumns`: every column by the circulant of (2, 3, 1, 1) (42_round_primitives.md R167). -/
def mixColumns (b : Block) : Block :=
  Vector.ofFn fun i => circulant 0x02 0x03 0x01 0x01 (fun r => matrixAt b r (i.val / 4)) (i.val % 4)

/-- `InvMixColumns`: every column by the circulant of (14, 11, 13, 9) (42_round_primitives.md R168). -/
def invMixColumns (b : Block) : Block :=
  Vector.ofFn fun i => circulant 0x0E 0x0B 0x0D 0x09 (fun r => matrixAt b r (i.val / 4)) (i.val % 4)

/-- SUBBYTES (42_round_primitives.md R170). -/
def execSubBytes (s : State) : Result := retire .ok { s with blk := subBytes s.blk }

/-- INVSUBBYTES (42_round_primitives.md R171). -/
def execInvSubBytes (s : State) : Result := retire .ok { s with blk := invSubBytes s.blk }

/-- SHIFTROWS (42_round_primitives.md R172). -/
def execShiftRows (s : State) : Result := retire .ok { s with blk := shiftRows s.blk }

/-- INVSHIFTROWS (42_round_primitives.md R173). -/
def execInvShiftRows (s : State) : Result := retire .ok { s with blk := invShiftRows s.blk }

/-- MIXCOLUMNS (42_round_primitives.md R174). -/
def execMixColumns (s : State) : Result := retire .ok { s with blk := mixColumns s.blk }

/-- INVMIXCOLUMNS (42_round_primitives.md R175). -/
def execInvMixColumns (s : State) : Result := retire .ok { s with blk := invMixColumns s.blk }

/-- ADDRK (42_round_primitives.md R176): NOT_KEYED before INDEX_RANGE (60_exceptions.md R274). -/
def execAddRk (idx : Nat) (s : State) : Result :=
  if !s.keyed then retire .notKeyed s
  else if contextRounds s < idx then retire .indexRange s
  else retire .ok { s with blk := addRoundKey s.blk (effRoundKey s.rk s.tweak (contextRounds s) idx) }

end Sys2Proof.Machine
end

