-- ==== Sys2Proof/Machine/KeySchedule.lean ====
section
/-! DEFINITION. The key-schedule expander and the INIT command (41_key_schedule.md). -/

namespace Sys2Proof.Machine

/-- `RotWord`: rotate left by one byte (41_key_schedule.md R142). -/
def rotWord (w : Word) : Word := wordOfBytes (wordByte w 1) (wordByte w 2) (wordByte w 3) (wordByte w 0)

/-- `SubWord`: the S-box on each byte (41_key_schedule.md R142). -/
def subWord (w : Word) : Word :=
  wordOfBytes (sbox (wordByte w 0)) (sbox (wordByte w 1)) (sbox (wordByte w 2)) (sbox (wordByte w 3))

/-- `RCON[j]`: `RCON[1] = 0x01`, `RCON[j+1] = xtime(RCON[j])` (41_key_schedule.md R143). Index 0 is never read
(R148). -/
def rcon : Nat → Byte
  | 0 => 0x00
  | 1 => 0x01
  | j + 2 => xtime (rcon (j + 1))

/-- The round-constant word `RCON[j] << 24` (41_key_schedule.md R143). -/
def rconWord (j : Nat) : Word := wordOfBytes (rcon j) 0 0 0

/-- `temp` of the recurrence at word index `i`, from the previous word (41_key_schedule.md R144; 90_conflicts.md C4). -/
def scheduleTemp (nk i : Nat) (previous : Word) : Word :=
  if i % nk = 0 then subWord (rotWord previous) ^^^ rconWord (i / nk)
  else if 6 < nk ∧ i % nk = 4 then subWord previous
  else previous

/-- Word `i` of an expansion under way. -/
def wordAt (ws : List Word) (i : Nat) : Word := ws.getD i 0

/-- The next word after `W[0..i-1]`: `W[i] := W[i-Nk] ⊕ temp` (41_key_schedule.md R144). -/
def nextWord (nk : Nat) (ws : List Word) : Word :=
  wordAt ws (ws.length - nk) ^^^ scheduleTemp nk ws.length (wordAt ws (ws.length - 1))

/-- `n` iterations of the second loop of KeyExpansion, one per phase `KEXP(i)` (41_key_schedule.md R144). -/
def extendWords (nk : Nat) : Nat → List Word → List Word
  | 0, ws => ws
  | n + 1, ws => extendWords nk n (ws ++ [nextWord nk ws])

/-- The words `W[0 .. 4(Nr+1)-1]` for the first `ksz` bytes of the key buffer (41_key_schedule.md R140, R141, R144). -/
def expandedWords (key : KeyBuffer) (ksz : Nat) : List Word :=
  extendWords (keyWordCount ksz) (4 * (roundCount ksz + 1) - keyWordCount ksz)
    ((List.range (keyWordCount ksz)).map (keyWord key))

/-- `RK[j]`: four words serialized big-endian (00_scope.md R12, 41_key_schedule.md R144). -/
def roundKeyOf (ws : List Word) (j : Nat) : Block :=
  Vector.ofFn fun i => wordByte (wordAt ws (4 * j + i.val / 4)) (i.val % 4)

/-- The round-key store after INIT: `RK[0..Nr]` from KeyExpansion and `RK[Nr+1..14]` zero (41_key_schedule.md R144,
R145, R149). -/
def expandKey (key : KeyBuffer) (ksz : Nat) : RoundKeys :=
  let ws := expandedWords key ksz
  Vector.ofFn fun j => if j.val ≤ roundCount ksz then roundKeyOf ws j.val else zeroBytes 16

/-- The context that a successful INIT loads (41_key_schedule.md R145): `tz` zeroes the tweak, and KEY is cleared. -/
def loadContext (ksz : Nat) (tz : Bool) (s : State) : State :=
  { s with
    rk := expandKey s.key ksz
    ksize := BitVec.ofNat 6 ksz
    keyed := true
    tweak := if tz then zeroBytes 16 else s.tweak
    key := zeroBytes 32 }

/-- INIT (41_key_schedule.md R145); with an illegal size it destroys the context (R146). -/
def execInit (ksz : Nat) (tz : Bool) (s : State) : Result :=
  if validKeySize ksz then retire .ok (loadContext ksz tz s)
  else retire .invalidKeySize (clearContext s)

end Sys2Proof.Machine
end

