-- ==== Sys2Proof/Machine/CipherCore.lean ====
section
/-! DEFINITION. The round pipeline: TAESEncrypt, TAESDecrypt and their commands (43_cipher_core.md). -/

namespace Sys2Proof.Machine

/-- One inner round of encryption with the round key `k`: SubBytes, ShiftRows, MixColumns, AddRoundKey
(43_cipher_core.md R193). -/
def encryptRound (k s : Block) : Block := addRoundKey (mixColumns (shiftRows (subBytes s))) k

/-- The last round of encryption: no MixColumns (43_cipher_core.md R193). -/
def encryptFinal (k s : Block) : Block := addRoundKey (shiftRows (subBytes s)) k

/-- One inner round of decryption with the round key `k`: InvShiftRows, InvSubBytes, AddRoundKey, InvMixColumns
(43_cipher_core.md R195). -/
def decryptRound (k s : Block) : Block := invMixColumns (addRoundKey (invSubBytes (invShiftRows s)) k)

/-- The last round of decryption (43_cipher_core.md R195). -/
def decryptFinal (k s : Block) : Block := addRoundKey (invSubBytes (invShiftRows s)) k

/-- `TAESEncrypt(RK, T, P)` with `nr` rounds (43_cipher_core.md R193). -/
def taesEncrypt (rk : RoundKeys) (nr : Nat) (t p : Block) : Block :=
  let start := addRoundKey p (effRoundKey rk t nr 0)
  let inner := (innerRounds nr).foldl (fun s r => encryptRound (effRoundKey rk t nr r) s) start
  encryptFinal (effRoundKey rk t nr nr) inner

/-- `TAESDecrypt(RK, T, C)` with `nr` rounds (43_cipher_core.md R195). -/
def taesDecrypt (rk : RoundKeys) (nr : Nat) (t c : Block) : Block :=
  let start := addRoundKey c (effRoundKey rk t nr nr)
  let inner := (innerRounds nr).reverse.foldl (fun s r => decryptRound (effRoundKey rk t nr r) s) start
  decryptFinal (effRoundKey rk t nr 0) inner

/-- ENCRYPT (43_cipher_core.md R192). -/
def execEncrypt (s : State) : Result :=
  if s.keyed then retire .ok { s with blk := taesEncrypt s.rk (contextRounds s) s.tweak s.blk }
  else retire .notKeyed s

/-- DECRYPT (43_cipher_core.md R194). -/
def execDecrypt (s : State) : Result :=
  if s.keyed then retire .ok { s with blk := taesDecrypt s.rk (contextRounds s) s.tweak s.blk }
  else retire .notKeyed s

end Sys2Proof.Machine
end

