-- ==== Sys2Proof/Machine/ContextOps.lean ====
section
/-! DEFINITION. The context commands NOP, CLEANUP and TWEAK_INC (44_context_ops.md) and the reserved opcodes
(30_encoding.md R106). -/

namespace Sys2Proof.Machine

/-- NOP (44_context_ops.md R220). -/
def execNop (s : State) : Result := retire .ok s

/-- CLEANUP (44_context_ops.md R221): the context and BLK are zeroed; CTRL and WERR stay. -/
def execCleanup (s : State) : Result := retire .ok { clearContext s with blk := zeroBytes 16 }

/-- `Σ_{i=0..15} T[i] · 2^(8i)`: the tweak as a 128-bit number, byte 0 least significant (44_context_ops.md R222). -/
def tweakNumber (t : Block) : Nat :=
  (List.range 16).foldr (fun i v => (byteAt t i).toNat * 2 ^ (8 * i) + v) 0

/-- The tweak whose number is `v`: byte `i` is `v[8i+7 : 8i]` (44_context_ops.md R222). -/
def tweakOfNumber (v : Nat) : Block := Vector.ofFn fun i => BitVec.ofNat 8 (v / 2 ^ (8 * i.val))

/-- `TweakInc(T)`: the 128-bit little-endian increment, wrapping silently (44_context_ops.md R222). -/
def incrementTweak (t : Block) : Block := tweakOfNumber ((tweakNumber t + 1) % 2 ^ 128)

/-- TWEAK_INC (44_context_ops.md R222). -/
def execTweakInc (s : State) : Result := retire .ok { s with tweak := incrementTweak s.tweak }

/-- The reserved opcodes 0x6 and 0x7: nothing but ERR changes (30_encoding.md R106). Both opcodes act alike. -/
def execReserved67 (_odd : Bool) (s : State) : Result := retire .illegalCmd s

end Sys2Proof.Machine
end

