-- ==== Sys2Proof/Machine/Dispatch.lean ====
section
/-! DEFINITION. The completion of a command: one arm per row of the opcode table (30_encoding.md R105, R106). -/

namespace Sys2Proof.Machine

def exec (i : Instr) (s : State) : Host.Outcome State Fault Refusal :=
  match i with
  | .nop => Sys2Proof.Machine.execNop s
  | .init ksz tz => Sys2Proof.Machine.execInit ksz tz s
  | .encrypt => Sys2Proof.Machine.execEncrypt s
  | .decrypt => Sys2Proof.Machine.execDecrypt s
  | .cleanup => Sys2Proof.Machine.execCleanup s
  | .tweakInc => Sys2Proof.Machine.execTweakInc s
  | .subBytes => Sys2Proof.Machine.execSubBytes s
  | .invSubBytes => Sys2Proof.Machine.execInvSubBytes s
  | .shiftRows => Sys2Proof.Machine.execShiftRows s
  | .invShiftRows => Sys2Proof.Machine.execInvShiftRows s
  | .mixColumns => Sys2Proof.Machine.execMixColumns s
  | .invMixColumns => Sys2Proof.Machine.execInvMixColumns s
  | .addRk idx => Sys2Proof.Machine.execAddRk idx s
  | .gfMul gfc => Sys2Proof.Machine.execGfMul gfc s
  | .reserved67 odd => Sys2Proof.Machine.execReserved67 odd s

end Sys2Proof.Machine
end

