-- ==== Sys2Proof/Machine/Step.lean ====
section
/-! DEFINITION. One step of the whole: the earliest pending event of the access order happens (20_memory.md R80). -/

namespace Sys2Proof.Machine

/-- The block's turn to complete: the running command, read from CTRL, has its effect (60_exceptions.md R276,
20_memory.md R83). With BUSY = 0 there is nothing to complete. -/
def completeCommand (s : State) : Host.Outcome State Fault Refusal :=
  if s.busy then exec (decode s.ctrl) s else .next s

/-- One event happens. -/
def handle (e : Event) (s : State) : Host.Outcome State Fault Refusal :=
  match e with
  | .access a => .next (busAccess a s)
  | .advance => .next (advance s)
  | .complete => completeCommand s
  | .reset none => .next (resetBlock s)
  | .reset (some _) => .refused .accessCoincidesWithReset

/-- One step: the earliest pending event; with none pending, a busy block completes its command (weak fairness,
70_reset_and_hazards.md R310) and an idle block waits (60_exceptions.md R287). -/
def step (s : State) : Host.Outcome State Fault Refusal :=
  match s.pending with
  | [] => completeCommand s
  | e :: rest => handle e (withPending rest s)

/-- `s` with the command of an opcode-table row accepted (60_exceptions.md R276) and its completion the very next event:
the block fetches no program, a host hands it each command word (notes/assumptions/6.md). -/
def State.withFetchWord (s : State) (nbits w : Nat) : State :=
  withPending (.complete :: s.pending) (accept (BitVec.ofNat 32 (w % 2 ^ nbits)) s)

end Sys2Proof.Machine
end

