-- ==== Sys2Proof/Machine/HostOps.lean ====
section
/-! DEFINITION. The host's side of the window: the spec's host operations and pseudo-instructions (30_encoding.md R108) as
functions on the state. They are host software over the block's accesses and completions; `step` does not use them. -/

namespace Sys2Proof.Machine

/-- The access of `WR <off>, <v>` (30_encoding.md R108). -/
def wrAccess (off : Nat) (v : Word) : Access := ⟨Config.taesBase + off, .w32, .write (v.setWidth 64)⟩

/-- The access of `RD <off>` (30_encoding.md R108). -/
def rdAccess (off : Nat) : Access := ⟨Config.taesBase + off, .w32, .read⟩

/-- `WR <off>, <v>`: one `BusWrite` (00_scope.md R13, 30_encoding.md R108). -/
def hostWrite (off : Nat) (v : Word) (s : State) : State := busAccess (wrAccess off v) s

/-- The word that the newest answer, that of a read, gives the host: its data, or the unspecified data of a bus error
(20_memory.md R72, R74). DESIGN CHOICE (notes/assumptions/15.md): the word of a bus error is the free value drawn for it;
a read in the window never leaves one of the other answers newest, and for those the function is 0. -/
def lastData (s : State) : Word :=
  match s.responses with
  | .data v :: _ => v
  | .readError v :: _ => v.setWidth 32
  | .written :: _ | .writeError :: _ | [] => 0

/-- `RD <off> -> name`: one `BusRead` and its result (00_scope.md R13, 30_encoding.md R108). DESIGN CHOICE
(notes/assumptions/15.md): past the end of the window the block gives no answer, and what the platform answers is a free
value. -/
def hostRead (off : Nat) (s : State) : Word × State :=
  if off < Config.windowSize then
    let t := busAccess (rdAccess off) s
    (lastData t, t)
  else ((drawnValue s).setWidth 32, countDraw s)

/-- The word that carries bytes `4j .. 4j+3` of a byte string in its lanes (20_memory.md R75). DESIGN CHOICE
(notes/assumptions/16.md): a byte past the end of the string is 0. -/
def lanesOf (bytes : List Byte) (j : Nat) : Word :=
  bytes.getD (4 * j + 3) 0 ++ bytes.getD (4 * j + 2) 0 ++ bytes.getD (4 * j + 1) 0 ++ bytes.getD (4 * j) 0

/-- `WR base+4j, <lanes of bytes 4j..4j+3>` for j = 0..ceil(n/4)-1: LDKEY at 0x20, LDTWK at 0x40, LDBLK at 0x50
(30_encoding.md R108). Where `n` is no multiple of 4, the last word is filled up by `lanesOf`
(notes/assumptions/16.md, DESIGN CHOICE). -/
def loadBytes (base : Nat) (bytes : List Byte) (s : State) : State :=
  (List.range ((bytes.length + 3) / 4)).foldl (fun s j => hostWrite (base + 4 * j) (lanesOf bytes j) s) s

/-- `LDKEY <hex bytes>` (30_encoding.md R108). -/
def loadKey (bytes : List Byte) (s : State) : State := loadBytes 0x20 bytes s

/-- `LDTWK <16 hex bytes>` (30_encoding.md R108). -/
def loadTweak (t : Block) (s : State) : State := loadBytes 0x40 t.toList s

/-- `LDBLK <16 hex bytes>` (30_encoding.md R108). -/
def loadBlock (b : Block) (s : State) : State := loadBytes 0x50 b.toList s

/-- `RD base+4j` for j = 0..3 with the bytes reassembled (30_encoding.md R108): the 16 bytes and the state after. -/
def readBytes (base : Nat) (s : State) : Block × State :=
  let r0 := hostRead base s
  let r1 := hostRead (base + 4) r0.2
  let r2 := hostRead (base + 8) r1.2
  let r3 := hostRead (base + 12) r2.2
  (Vector.ofFn fun i => laneByte ([r0.1, r1.1, r2.1, r3.1].getD (i.val / 4) 0) (i.val % 4), r3.2)

/-- `RDBLK -> <name>` (30_encoding.md R108). -/
def readBlock (s : State) : Block × State := readBytes 0x50 s

/-- `RDTWK -> <name>` (30_encoding.md R108). -/
def readTweak (s : State) : Block × State := readBytes 0x40 s

/-- `POLL`: STATUS is read until BUSY = 0. The reads that still see BUSY = 1 are left out; the block completes in between,
as it must (30_encoding.md R108, 70_reset_and_hazards.md R310, R311). -/
def poll (s : State) : Word × State :=
  match completeCommand s with
  | .next t => hostRead 0x08 t
  | .fault _ => hostRead 0x08 s
  | .refused _ => hostRead 0x08 s

/-- `ISSUE <command>` is `WR 0x04, <word>; POLL`; the answer is STATUS.ERR (30_encoding.md R108). -/
def issue (i : Instr) (s : State) : BitVec 4 × State :=
  let r := poll (hostWrite 0x04 (encode i) s)
  (r.1.extractLsb' 4 4, r.2)

end Sys2Proof.Machine
end

