-- ==== Sys2Proof/Machine/HostMode.lean ====
section
/-! DEFINITION. The host-side mode of operation: an incrementing tweak with ciphertext stealing (48_host_mode.md). It is
host software that drives the block (00_scope.md R5(a)); `step` does not use it. -/

namespace Sys2Proof.Machine

/-- What a mode call can report instead of output. -/
inductive ModeError where
  /-- `ModeLengthError`: the input is not longer than one block (48_host_mode.md R241). -/
  | modeLength
  /-- A command completed with this STATUS.ERR (48_host_mode.md R250). -/
  | command (err : BitVec 4)
  deriving DecidableEq, Repr

/-- `T_k := TweakInc^k(T_0)` (48_host_mode.md R242). -/
def tweakAfter (t0 : Block) : Nat → Block
  | 0 => t0
  | k + 1 => incrementTweak (tweakAfter t0 k)

/-- Block `b` of a buffer: bytes `16b .. 16b+15` (48_host_mode.md R242). -/
def bufferBlock (buf : List Byte) (b : Nat) : Block := Vector.ofFn fun i => buf.getD (16 * b + i.val) 0

/-- The block `front || x[r..15]`, where `r` is the length of `front`: the padded block of encryption and the rebuilt
penultimate block of decryption (48_host_mode.md R243, R245; 90_conflicts.md C1). -/
def steal (front : List Byte) (x : Block) : Block := Vector.ofFn fun i => front.getD i.val x[i]

/-- `n`, the number of full blocks (48_host_mode.md R242). -/
def fullBlocks (buf : List Byte) : Nat := buf.length / 16

/-- The trailing bytes `buf[16n .. L-1]`, `r = L mod 16` of them (48_host_mode.md R242). -/
def trailing (buf : List Byte) : List Byte := buf.drop (16 * fullBlocks buf)

/-- `C_b` or `P_b` for b = 0 .. count-1, each block under its own tweak, joined (48_host_mode.md R243, R245). -/
def leadingBlocks (crypt : Block → Block → Block) (buf : List Byte) (t0 : Block) (count : Nat) : List Byte :=
  (List.range count).flatMap fun b => (crypt (tweakAfter t0 b) (bufferBlock buf b)).toList

/-- `ModeEncrypt(pt, L, T_0)`: the output and the final tweak (48_host_mode.md R243). -/
def modeEncrypt (rk : RoundKeys) (nr : Nat) (pt : List Byte) (t0 : Block) : Except ModeError (List Byte × Block) :=
  let n := fullBlocks pt
  let r := pt.length % 16
  if pt.length ≤ 16 then .error .modeLength
  else if r = 0 then .ok (leadingBlocks (taesEncrypt rk nr) pt t0 n, tweakAfter t0 n)
  else
    let c' := taesEncrypt rk nr (tweakAfter t0 (n - 1)) (bufferBlock pt (n - 1))
    let cLast := taesEncrypt rk nr (tweakAfter t0 n) (steal (trailing pt) c')
    .ok (leadingBlocks (taesEncrypt rk nr) pt t0 (n - 1) ++ cLast.toList ++ c'.toList.take r, tweakAfter t0 (n + 1))

/-- `ModeDecrypt(ct, L, T_0)`: the output and the final tweak (48_host_mode.md R245; 90_conflicts.md C3). -/
def modeDecrypt (rk : RoundKeys) (nr : Nat) (ct : List Byte) (t0 : Block) : Except ModeError (List Byte × Block) :=
  let n := fullBlocks ct
  let r := ct.length % 16
  if ct.length ≤ 16 then .error .modeLength
  else if r = 0 then .ok (leadingBlocks (taesDecrypt rk nr) ct t0 n, tweakAfter t0 n)
  else
    let x := taesDecrypt rk nr (tweakAfter t0 n) (bufferBlock ct (n - 1))
    let pLast := taesDecrypt rk nr (tweakAfter t0 (n - 1)) (steal (trailing ct) x)
    .ok (leadingBlocks (taesDecrypt rk nr) ct t0 (n - 1) ++ pLast.toList ++ x.toList.take r, tweakAfter t0 (n + 1))

/-- The next part of a host procedure runs unless an error has ended it (48_host_mode.md R250). -/
def andThen {α β : Type} (run : Except ModeError α × State) (next : α → State → Except ModeError β × State) :
    Except ModeError β × State :=
  match run with
  | (.ok a, s) => next a s
  | (.error e, s) => (.error e, s)

/-- `ISSUE <command>` followed by the check of STATUS.ERR (48_host_mode.md R248, R250). -/
def issueChecked (i : Instr) (s : State) : Except ModeError Unit × State :=
  let r := issue i s
  if r.1 = 0 then (.ok (), r.2) else (.error (.command r.1), r.2)

/-- `LDBLK b ; ISSUE <command> ; RDBLK` (48_host_mode.md R248, R249). -/
def cryptBlock (i : Instr) (b : Block) (s : State) : Except ModeError Block × State :=
  andThen (issueChecked i (loadBlock b s)) fun _ s =>
    let r := readBlock s
    (.ok r.1, r.2)

/-- `LDBLK b ; ISSUE <command> ; RDBLK ; ISSUE TWEAK_INC` (48_host_mode.md R248, R249). -/
def cryptAndAdvance (i : Instr) (b : Block) (s : State) : Except ModeError Block × State :=
  andThen (cryptBlock i b s) fun x s => andThen (issueChecked .tweakInc s) fun _ s => (.ok x, s)

/-- The loop over `count` leading blocks from block `b` on (48_host_mode.md R248, R249). -/
def hostLeadingBlocks (i : Instr) (buf : List Byte) : (count b : Nat) → State → Except ModeError (List Byte) × State
  | 0, _, s => (.ok [], s)
  | count + 1, b, s =>
    andThen (cryptAndAdvance i (bufferBlock buf b) s) fun x s =>
      andThen (hostLeadingBlocks i buf count (b + 1) s) fun out s => (.ok (x.toList ++ out), s)

/-- `ModeEncryptHost(pt, L)` (48_host_mode.md R248): the output, or the error that ended it, and the state after. -/
def modeEncryptHost (pt : List Byte) (s : State) : Except ModeError (List Byte) × State :=
  let n := fullBlocks pt
  let r := pt.length % 16
  if pt.length ≤ 16 then (.error .modeLength, s)
  else if r = 0 then hostLeadingBlocks .encrypt pt n 0 s
  else
    andThen (hostLeadingBlocks .encrypt pt (n - 1) 0 s) fun out s =>
      andThen (cryptAndAdvance .encrypt (bufferBlock pt (n - 1)) s) fun cp s =>
        andThen (cryptAndAdvance .encrypt (steal (trailing pt) cp) s) fun cLast s =>
          (.ok (out ++ cLast.toList ++ cp.toList.take r), s)

/-- `ModeDecryptHost(ct, L)`, with the tweak saved and restored around the stealing step (48_host_mode.md R249). -/
def modeDecryptHost (ct : List Byte) (s : State) : Except ModeError (List Byte) × State :=
  let n := fullBlocks ct
  let r := ct.length % 16
  if ct.length ≤ 16 then (.error .modeLength, s)
  else if r = 0 then hostLeadingBlocks .decrypt ct n 0 s
  else
    andThen (hostLeadingBlocks .decrypt ct (n - 1) 0 s) fun out s =>
      let saved := readTweak s
      andThen (issueChecked .tweakInc saved.2) fun _ s =>
        andThen (cryptBlock .decrypt (bufferBlock ct (n - 1)) s) fun x s =>
          andThen (cryptBlock .decrypt (steal (trailing ct) x) (loadTweak saved.1 s)) fun pPen s =>
            andThen (issueChecked .tweakInc s) fun _ s =>
              andThen (issueChecked .tweakInc s) fun _ s =>
                (.ok (out ++ pPen.toList ++ x.toList.take r), s)

end Sys2Proof.Machine
end

