-- ==== Sys2Proof/Safety.lean ====
section
/-! DEFINITION. What counts as a safe state, event and run: the invariants of 10_state.md R39, R44 and R47, the host's duties
of 70_reset_and_hazards.md R304 and R311, and what the platform must not do (R300). -/

namespace Sys2Proof.Machine

/-- 10_state.md R39: KSIZE is 0, 16, 24 or 32, and it is 0 exactly when KEYED = 0. -/
def KeySizeInv (s : State) : Prop :=
  if s.keyed then validKeySize s.ksize.toNat = true else s.ksize = 0

/-- 10_state.md R47(a), R47(b), R43: with KEYED = 1 the round-key store is the expansion of some key of KSIZE bytes, its
unused entries zero; with KEYED = 0 it is all zero. -/
def RoundKeyInv (s : State) : Prop :=
  if s.keyed then ∃ key : KeyBuffer, s.rk = expandKey key s.ksize.toNat else s.rk = zeroRoundKeys

/-- 10_state.md R44, R47(c): BUSY = 0 exactly when SEQ is IDLE, and a running SEQ holds the word in CTRL and one of its
phases. -/
def SequencerInv (s : State) : Prop :=
  match s.seq with
  | .idle => s.busy = false
  | .run w ph => s.busy = true ∧ w = s.ctrl ∧ ph ∈ phases (decode w) s.keyed s.ksize.toNat

/-- 10_state.md R47(d), R37: ERR is 0 .. 4, and it is 0 while a command runs. -/
def ErrInv (s : State) : Prop := s.err.toNat ≤ 4 ∧ (s.busy = true → s.err = 0)

/-- The invariants of 10_state.md R47, together with R37 and R39. -/
structure Inv (s : State) : Prop where
  keySize : KeySizeInv s
  roundKeys : RoundKeyInv s
  sequencer : SequencerInv s
  err : ErrInv s

/-- A host access that the block may not take now: it lies in the window, has the right form, and is a write dropped
while BUSY = 1 (70_reset_and_hazards.md R311(a)). -/
def isHazardousWrite (a : Access) (s : State) : Bool :=
  match windowOffset a.addr, a.kind with
  | some off, .write _ => s.busy && a.width == .w32 && off % 4 == 0 && (regAt off).writeDroppedWhileBusy
  | _, _ => false

/-- The host keeps the completion hazard at the next event (70_reset_and_hazards.md R311(a)). -/
def hostKeepsHazard (s : State) : Bool :=
  match s.pending with
  | .access a :: _ => !isHazardousWrite a s
  | _ => true

/-- The platform keeps accesses and resets apart at the next event (70_reset_and_hazards.md R300). -/
def platformKeepsReset (s : State) : Bool :=
  match s.pending with
  | .reset (some _) :: _ => false
  | _ => true

/-- The host's duty at the end of a run: the context is torn down (70_reset_and_hazards.md R304). -/
def contextTornDown (s : State) : Bool := !s.keyed && s.tweak == zeroBytes 16

end Sys2Proof.Machine
end

