-- ==== Sys2Proof/Certificates/Slice0/Obligations.lean ====
section
/-! DEFINITION. The statements for the provers. A statement about an instruction's result gives the WHOLE next state
as the state before with the changed fields named, so that it is its frame and its completion too. -/

namespace Sys2Proof.Machine

/-- The event of a 32-bit host write at an offset of the window; the low 32 bits of `d` are the data. -/
abbrev writeEvent (off : Nat) (d : BitVec 64) : Event := .access ⟨Config.taesBase + off, .w32, .write d⟩

/-- The event of a 32-bit host read at an offset of the window. -/
abbrev readEvent (off : Nat) : Event := .access ⟨Config.taesBase + off, .w32, .read⟩

/-- The state `s` after one more bus access that was answered `r`, with the events `rest` still to come. -/
def answered (r : Response) (rest : List Event) (s : State) : State :=
  { s with pending := rest, responses := r :: s.responses }

/-- The running command `i` completes at the next step (60_exceptions.md R276). -/
def CompletesNext (s : State) (i : Instr) : Prop :=
  s.busy = true ∧ decode s.ctrl = i ∧ (s.pending = [] ∨ ∃ rest, s.pending = .complete :: rest)

/-- An INIT or a CLEANUP completes at the next step, or the block is reset. -/
def ContextIsReplacedNext (s : State) : Prop :=
  (∃ ksz tz, CompletesNext s (.init ksz tz)) ∨ CompletesNext s .cleanup ∨ ∃ rest, s.pending = .reset none :: rest

/-- The rows of 00_scope.md R6 for the loaded context: its `Nr` and `TR`. -/
def ContextShape (s : State) (nr tr : Nat) : Prop :=
  (s.ksize = 16 ∧ nr = 10 ∧ tr = 5) ∨ (s.ksize = 24 ∧ nr = 12 ∧ tr = 6) ∨ (s.ksize = 32 ∧ nr = 14 ∧ tr = 7)

/-- `after = AddRoundKey(before, EffRK(j))`, byte by byte, with the tweak in round `tr` only (42_round_primitives.md R169,
43_cipher_core.md R191). -/
def IsAddEffRoundKey (rk : RoundKeys) (tweak : Block) (tr j : Nat) (before after : Block) : Prop :=
  ∀ i, i < 16 → byteAt after i =
    byteAt before i ^^^ byteAt (roundKeyAt rk j) i ^^^ (if j = tr then byteAt tweak i else 0)

/-- `{m}•x` for the MixColumns multipliers, by doublings and sums (40_gf_arith.md R123). -/
def timesBy (m : Nat) (x : Byte) : Byte :=
  if m = 2 then xtime x
  else if m = 3 then xtime x ^^^ x
  else if m = 9 then xtime (xtime (xtime x)) ^^^ x
  else if m = 11 then xtime (xtime (xtime x)) ^^^ xtime x ^^^ x
  else if m = 13 then xtime (xtime (xtime x)) ^^^ xtime (xtime x) ^^^ x
  else if m = 14 then xtime (xtime (xtime x)) ^^^ xtime (xtime x) ^^^ xtime x
  else x

/-- The events of commands issued one after another: each word is written to CTRL, and its command completes before the
next is written. -/
def issueEvents (commands : List Instr) : List Event :=
  commands.flatMap fun i => [writeEvent 0x04 ((encode i).setWidth 64), .complete]

/-- The primitive commands of one encryption with `nr` rounds (95_test_vectors.md program P3). -/
def steppedEncryption (nr : Nat) : List Instr :=
  .addRk 0 :: ((List.range' 1 (nr - 1)).flatMap fun r => [.subBytes, .shiftRows, .mixColumns, .addRk r])
    ++ [.subBytes, .shiftRows, .addRk nr]

/-- The equivalent inverse cipher: InvMixColumns stands before AddRoundKey and is applied to the inner effective round
keys (43_cipher_core.md R199). -/
def equivalentInverseCipher (rk : RoundKeys) (nr : Nat) (t c : Block) : Block :=
  let start := addRoundKey c (effRoundKey rk t nr nr)
  let inner := (List.range' 1 (nr - 1)).reverse.foldl
    (fun s r => addRoundKey (invMixColumns (invSubBytes (invShiftRows s))) (invMixColumns (effRoundKey rk t nr r))) start
  addRoundKey (invSubBytes (invShiftRows inner)) (effRoundKey rk t nr 0)

/-- Plain AES encryption: the pipeline with the round keys themselves (43_cipher_core.md R197). -/
def plainAesEncrypt (rk : RoundKeys) (nr : Nat) (p : Block) : Block :=
  let inner := (List.range' 1 (nr - 1)).foldl
    (fun s r => addRoundKey (mixColumns (shiftRows (subBytes s))) (roundKeyAt rk r)) (addRoundKey p (roundKeyAt rk 0))
  addRoundKey (shiftRows (subBytes inner)) (roundKeyAt rk nr)

/-- Plain AES decryption (43_cipher_core.md R197). -/
def plainAesDecrypt (rk : RoundKeys) (nr : Nat) (c : Block) : Block :=
  let inner := (List.range' 1 (nr - 1)).reverse.foldl
    (fun s r => invMixColumns (addRoundKey (invSubBytes (invShiftRows s)) (roundKeyAt rk r)))
    (addRoundKey c (roundKeyAt rk nr))
  addRoundKey (invSubBytes (invShiftRows inner)) (roundKeyAt rk 0)

/-- The block whose byte `i` is `m * i`; for `m = 0x11` it is `00112233445566778899aabbccddeeff`. -/
def rampBlock (m : Nat) : Block := Vector.ofFn fun i => BitVec.ofNat 8 (m * i.val)

end Sys2Proof.Machine

open Sys2Proof Sys2Proof.Machine

/-! ## Encoding -/

/-- 30_encoding.md sections 1 and 2 (R101, R102, R105, R106, R108): no bit of an operand is lost between assembling and
decoding, the opcode stands in CMD, and the reserved bits are zero. -/
def Obligations.DecodeInvertsEncode : Prop :=
  ∀ i : Instr, i.wellFormed = true →
    decode (encode i) = i ∧ fieldCmd (encode i) = opcode i ∧ (encode i) &&& 0x00FE0000#32 = 0

/-- 30_encoding.md R101, R102, R105: the opcode map, each field by the shift and mask of its place. -/
def Obligations.DecodeFollowsOpcodeMap : Prop :=
  ∀ w : Word,
    (w &&& 0xF#32 = 0x0#32 → decode w = .nop) ∧
    (w &&& 0xF#32 = 0x1#32 → decode w = .init ((w >>> 8) &&& 0xFF#32).toNat (((w >>> 16) &&& 1#32) == 1#32)) ∧
    (w &&& 0xF#32 = 0x2#32 → decode w = .encrypt) ∧
    (w &&& 0xF#32 = 0x3#32 → decode w = .decrypt) ∧
    (w &&& 0xF#32 = 0x4#32 → decode w = .cleanup) ∧
    (w &&& 0xF#32 = 0x5#32 → decode w = .tweakInc) ∧
    (w &&& 0xF#32 = 0x6#32 → decode w = .reserved67 false) ∧
    (w &&& 0xF#32 = 0x7#32 → decode w = .reserved67 true) ∧
    (w &&& 0xF#32 = 0x8#32 → decode w = .subBytes) ∧
    (w &&& 0xF#32 = 0x9#32 → decode w = .invSubBytes) ∧
    (w &&& 0xF#32 = 0xA#32 → decode w = .shiftRows) ∧
    (w &&& 0xF#32 = 0xB#32 → decode w = .invShiftRows) ∧
    (w &&& 0xF#32 = 0xC#32 → decode w = .mixColumns) ∧
    (w &&& 0xF#32 = 0xD#32 → decode w = .invMixColumns) ∧
    (w &&& 0xF#32 = 0xE#32 → decode w = .addRk ((w >>> 4) &&& 0xF#32).toNat) ∧
    (w &&& 0xF#32 = 0xF#32 → decode w = .gfMul ((w >>> 24).setWidth 8))

/-- 30_encoding.md R103, R104: a command ignores the fields it does not use and the reserved bits, and CTRL keeps the
word as written. -/
def Obligations.UnusedFieldsAreIgnoredAndKept : Prop :=
  (∀ w v : Word, w &&& 0xF#32 = v &&& 0xF#32 →
    (w &&& 0xF#32 = 0x1#32 → w &&& 0x0001FF00#32 = v &&& 0x0001FF00#32) →
    (w &&& 0xF#32 = 0xE#32 → w &&& 0xF0#32 = v &&& 0xF0#32) →
    (w &&& 0xF#32 = 0xF#32 → w &&& 0xFF000000#32 = v &&& 0xFF000000#32) → decode w = decode v) ∧
  (∀ w : Word, decode (w &&& 0xFF01FFFF#32) = decode w) ∧
  (∀ (s : State) (rest : List Event) (d : BitVec 64), s.busy = false →
    s.pending = writeEvent 0x04 d :: readEvent 0x04 :: rest →
      ∃ t u, step s = .next t ∧ step t = .next u ∧ u.responses = .data (d.setWidth 32) :: .written :: s.responses)

/-- 30_encoding.md sections 1 to 3: some words of the table of encoding examples and the commands they assemble from, both
ways; and two words with unused fields set (0xFFFEFFF2 of section 1, 0xFFFFFFF7 of section 2), which decode to a command
whose assembled word has those fields zero. -/
def Obligations.WorkedEncodings : Prop :=
  decode 0x00011001#32 = .init 16 true ∧ encode (.init 16 true) = 0x00011001#32 ∧
  decode 0x00001401#32 = .init 20 false ∧ encode (.init 20 false) = 0x00001401#32 ∧
  decode 0x00000002#32 = .encrypt ∧ encode .encrypt = 0x00000002#32 ∧
  decode 0x00000004#32 = .cleanup ∧ encode .cleanup = 0x00000004#32 ∧
  decode 0x0000000B#32 = .invShiftRows ∧ encode .invShiftRows = 0x0000000B#32 ∧
  decode 0x0000005E#32 = .addRk 5 ∧ encode (.addRk 5) = 0x0000005E#32 ∧
  decode 0x8300000F#32 = .gfMul 0x83 ∧ encode (.gfMul 0x83) = 0x8300000F#32 ∧
  decode 0xFFFEFFF2#32 = .encrypt ∧
  decode 0xFFFFFFF7#32 = .reserved67 true ∧ encode (.reserved67 true) = 0x00000007#32

/-! ## Reset, acceptance, completion -/

/-- 10_state.md R48: the reset values. -/
def Obligations.ResetStateIsCleared : Prop :=
  Config.idValue = 0x54414553#32 ∧ State.reset.ctrl = 0 ∧ statusWord State.reset = 0 ∧ State.reset.busy = false ∧
  State.reset.keyed = false ∧ State.reset.werr = false ∧ State.reset.err = 0 ∧ infoWord State.reset = 0 ∧
  State.reset.ksize = 0 ∧ (∀ i, i < 32 → byteAt State.reset.key i = 0) ∧
  (∀ i, i < 16 → byteAt State.reset.tweak i = 0 ∧ byteAt State.reset.blk i = 0) ∧
  (∀ j i, j < 15 → i < 16 → byteAt (roundKeyAt State.reset.rk j) i = 0) ∧ State.reset.seq = .idle

/-- 70_reset_and_hazards.md section 1: a reset at any moment leaves the reset state; a command in progress is abandoned. That
the model's own fields go on is its choice (notes/assumptions/1.md to 3.md). -/
def Obligations.ResetEventClearsEverything : Prop :=
  ∀ (s : State) (rest : List Event), s.pending = .reset none :: rest →
    step s = .next { State.reset with pending := rest, responses := s.responses, draws := s.draws }

/-- A step runs the decoded command (60_exceptions.md section 2): at the block's turn with BUSY = 1, step is exec of
the command that CTRL decodes to. The first clause, that the block's turn comes when no event is pending, is the model's
choice (notes/assumptions/1.md, DESIGN CHOICE); so is the third, that `withFetchWord` places exactly that
(notes/assumptions/6.md, DESIGN CHOICE). -/
def Obligations.StepRunsDecodedCommand : Prop :=
  (∀ (s : State) (i : Instr), s.busy = true → decode s.ctrl = i → s.pending = [] → step s = exec i s) ∧
  (∀ (s : State) (i : Instr) (rest : List Event), s.busy = true → decode s.ctrl = i →
    s.pending = .complete :: rest → step s = exec i { s with pending := rest }) ∧
  (∀ (s : State) (w : Word), step (s.withFetchWord 32 w.toNat) = exec (decode w) (accept w s))

/-- 60_exceptions.md R276: acceptance and completion. -/
def Obligations.AcceptanceAndCompletion : Prop :=
  (∀ (s : State) (rest : List Event) (d : BitVec 64), s.pending = writeEvent 0x04 d :: rest → s.busy = false →
    ∃ ph, (phases (decode (d.setWidth 32)) s.keyed s.ksize.toNat).head? = some ph ∧
      step s = .next (answered .written rest
        { s with ctrl := d.setWidth 32, busy := true, err := 0, seq := .run (d.setWidth 32) ph })) ∧
  (∀ (s : State) (rest : List Event), s.pending = .complete :: rest → s.busy = true →
    ∃ t, step s = .next t ∧ exec (decode s.ctrl) { s with pending := rest } = .next t ∧
      t.busy = false ∧ t.seq = .idle ∧ t.ctrl = s.ctrl ∧ t.werr = s.werr ∧
      t.pending = rest ∧ t.responses = s.responses)

/-- 60_exceptions.md R270, R274: the result code of every command, in the order of priority. Every command
completes in every state. -/
def Obligations.EveryCommandCompletesWithItsCode : Prop :=
  ∀ (i : Instr) (s : State), ∃ t, exec i s = .next t ∧ t.busy = false ∧ t.seq = .idle ∧
    t.err = match i with
      | .reserved67 _ => 3
      | .init ksz _ => if ksz = 16 ∨ ksz = 24 ∨ ksz = 32 then 0 else 1
      | .encrypt | .decrypt => if s.keyed then 0 else 2
      | .addRk idx => if s.keyed = false then 2 else if s.ksize.toNat / 4 + 6 < idx then 4 else 0
      | .nop | .cleanup | .tweakInc | .gfMul _ => 0
      | .subBytes | .invSubBytes | .shiftRows | .invShiftRows | .mixColumns | .invMixColumns => 0

/-- 60_exceptions.md R273: a failed command changes nothing but its result; a failed INIT also zeroes the context. -/
def Obligations.FailedCommandHasNoOutput : Prop :=
  ∀ (i : Instr) (s t : State), exec i s = .next t → t.err ≠ 0 →
    ((∀ ksz tz, i ≠ .init ksz tz) → t = { s with err := t.err, busy := false, seq := .idle }) ∧
    (∀ ksz tz, i = .init ksz tz → t.blk = s.blk ∧ t.keyed = false ∧ t.ksize = 0 ∧ t.rk = zeroRoundKeys ∧
      t.tweak = zeroBytes 16 ∧ t.key = zeroBytes 32)

/-- 10_state.md section 6 (its table of which command writes which state): the frame of every command, cell by cell. -/
def Obligations.CommandsWriteOnlyTheirCells : Prop :=
  ∀ (i : Instr) (s t : State), exec i s = .next t →
    (t.ctrl = s.ctrl ∧ t.werr = s.werr ∧ t.pending = s.pending ∧ t.responses = s.responses ∧ t.draws = s.draws) ∧
    (t.key ≠ s.key → (∃ ksz tz, i = .init ksz tz) ∨ i = .cleanup) ∧
    (t.tweak ≠ s.tweak → (∃ ksz, i = .init ksz true) ∨ (∃ ksz tz, i = .init ksz tz ∧ t.err = 1) ∨
      i = .cleanup ∨ i = .tweakInc) ∧
    (t.blk ≠ s.blk → i = .encrypt ∨ i = .decrypt ∨ i = .cleanup ∨ i = .subBytes ∨ i = .invSubBytes ∨
      i = .shiftRows ∨ i = .invShiftRows ∨ i = .mixColumns ∨ i = .invMixColumns ∨
      (∃ idx, i = .addRk idx) ∨ ∃ gfc, i = .gfMul gfc) ∧
    (t.rk ≠ s.rk ∨ t.ksize ≠ s.ksize ∨ t.keyed ≠ s.keyed → (∃ ksz tz, i = .init ksz tz) ∨ i = .cleanup)

/-! ## The bus -/

/-- 10_state.md R33: STATUS, its layout, its one writable bit, and its reset value. -/
def Obligations.StatusLayoutAndWrite : Prop :=
  (∀ (s : State) (rest : List Event), s.pending = readEvent 0x08 :: rest →
    ∃ v : Word, step s = .next (answered (.data v) rest s) ∧
      v.getLsbD 0 = s.busy ∧ v.getLsbD 1 = s.keyed ∧ v.getLsbD 2 = s.werr ∧ v.getLsbD 3 = false ∧
      (v >>> 4) &&& 0xF#32 = s.err.setWidth 32 ∧ v >>> 8 = 0) ∧
  (∀ (s : State) (rest : List Event) (d : BitVec 64), s.pending = writeEvent 0x08 d :: rest →
    step s = .next (answered .written rest { s with werr := if d.getLsbD 2 then false else s.werr })) ∧
  statusWord State.reset = 0

/-- 10_state.md R36: what sets and what clears WERR, and that a dropped write changes nothing else. How the bus answers a
dropped write is left open. -/
def Obligations.WriteWhileBusyIsDropped : Prop :=
  (∀ (s : State) (rest : List Event) (off : Nat) (d : BitVec 64), off % 4 = 0 →
    off = 0x04 ∨ (0x20 ≤ off ∧ off < 0x60) → s.pending = writeEvent off d :: rest → s.busy = true →
      ∃ r, step s = .next (answered r rest { s with werr := true })) ∧
  (∀ s t : State, step s = .next t → s.werr = false → t.werr = true →
    s.busy = true ∧ ∃ off d rest, s.pending = writeEvent off d :: rest ∧ off % 4 = 0 ∧
      (off = 0x04 ∨ (0x20 ≤ off ∧ off < 0x60))) ∧
  (∀ s t : State, step s = .next t → s.werr = true → t.werr = false →
    (∃ d rest, s.pending = writeEvent 0x08 d :: rest ∧ d.getLsbD 2 = true) ∨
      ∃ rest, s.pending = .reset none :: rest) ∧
  State.reset.werr = false

/-- 10_state.md R37: ERR is cleared at acceptance, set at completion to a code 0 .. 4, and kept in between. -/
def Obligations.ErrChangesOnlyWithACommand : Prop :=
  (∀ s t : State, step s = .next t → t.err ≠ s.err →
    (s.busy = false ∧ t.err = 0 ∧ ∃ d rest, s.pending = writeEvent 0x04 d :: rest) ∨
    (∃ i u, CompletesNext s i ∧ exec i { s with pending := t.pending } = .next u ∧ t.err = u.err) ∨
    (t.err = 0 ∧ ∃ rest, s.pending = .reset none :: rest)) ∧
  (∀ (s t : State) (d : BitVec 64) (rest : List Event), s.pending = writeEvent 0x04 d :: rest → s.busy = false →
    step s = .next t → t.err = 0) ∧
  (∀ (i : Instr) (s t : State), exec i s = .next t → t.err.toNat ≤ 4) ∧
  State.reset.err = 0

/-- 20_memory.md R73: every 32-bit write at a valid offset, idle and busy. How the bus answers a write that is dropped or
has no effect is left open. -/
def Obligations.RegisterWrites : Prop :=
  ∀ (s : State) (rest : List Event) (off : Nat) (d : BitVec 64), off < 0x100 → off % 4 = 0 →
    s.pending = writeEvent off d :: rest → ∃ t, step s = .next t ∧
      (off = 0x04 → s.busy = false → t.ctrl = d.setWidth 32 ∧ t.busy = true ∧ t.err = 0 ∧
        (∃ ph, t.seq = .run (d.setWidth 32) ph) ∧
        t = answered .written rest { s with ctrl := t.ctrl, busy := t.busy, err := t.err, seq := t.seq }) ∧
      (off = 0x08 → t = answered .written rest { s with werr := if d.getLsbD 2 then false else s.werr }) ∧
      (0x20 ≤ off → off < 0x40 → s.busy = false →
        t = answered .written rest { s with key := t.key } ∧
        ∀ i, i < 32 → byteAt t.key i =
          if 0x20 + i / 4 * 4 = off then (d >>> (8 * (i % 4))).setWidth 8 else byteAt s.key i) ∧
      (0x40 ≤ off → off < 0x50 → s.busy = false →
        t = answered .written rest { s with tweak := t.tweak } ∧
        ∀ i, i < 16 → byteAt t.tweak i =
          if 0x40 + i / 4 * 4 = off then (d >>> (8 * (i % 4))).setWidth 8 else byteAt s.tweak i) ∧
      (0x50 ≤ off → off < 0x60 → s.busy = false →
        t = answered .written rest { s with blk := t.blk } ∧
        ∀ i, i < 16 → byteAt t.blk i =
          if 0x50 + i / 4 * 4 = off then (d >>> (8 * (i % 4))).setWidth 8 else byteAt s.blk i) ∧
      (off = 0x04 ∨ (0x20 ≤ off ∧ off < 0x60) → s.busy = true →
        ∃ r, t = answered r rest { s with werr := true }) ∧
      (off = 0x00 ∨ (0x0C ≤ off ∧ off < 0x20) ∨ 0x60 ≤ off →
        ∃ r, t = answered r rest s)

/-- 20_memory.md R74: every defined 32-bit read at a valid offset, and that a read changes nothing. -/
def Obligations.RegisterReads : Prop :=
  ∀ (s : State) (rest : List Event) (off : Nat), off < 0x100 → off % 4 = 0 →
    ¬ (s.busy = true ∧ 0x40 ≤ off ∧ off < 0x60) → s.pending = readEvent off :: rest →
    ∃ v : Word, step s = .next (answered (.data v) rest s) ∧
      (off = 0x00 → v = 0x54414553#32) ∧
      (off = 0x04 → v = s.ctrl) ∧
      (off = 0x08 → v = (s.err.setWidth 32 <<< 4) ||| ((BitVec.ofBool s.werr).setWidth 32 <<< 2)
        ||| ((BitVec.ofBool s.keyed).setWidth 32 <<< 1) ||| (BitVec.ofBool s.busy).setWidth 32) ∧
      (off = 0x0C → s.keyed = false → v = 0) ∧
      (off = 0x0C → s.keyed = true → s.ksize = 16 → v = 0x00045A10#32) ∧
      (off = 0x0C → s.keyed = true → s.ksize = 24 → v = 0x00066C18#32) ∧
      (off = 0x0C → s.keyed = true → s.ksize = 32 → v = 0x00087E20#32) ∧
      (0x10 ≤ off → off < 0x40 → v = 0) ∧
      (0x40 ≤ off → off < 0x50 → ∀ k, k < 4 → (v >>> (8 * k)).setWidth 8 = byteAt s.tweak (off - 0x40 + k)) ∧
      (0x50 ≤ off → off < 0x60 → ∀ k, k < 4 → (v >>> (8 * k)).setWidth 8 = byteAt s.blk (off - 0x50 + k)) ∧
      (0x60 ≤ off → v = 0)

/-- 20_memory.md section 3: while BUSY = 1 a TWEAK or BLK read returns a free value, a fresh one each time (the draws are
notes/assumptions/2.md), and every other read stays defined; no read changes the block. -/
def Obligations.BusyReadsAreFreeDraws : Prop :=
  (∀ (s : State) (rest : List Event) (off : Nat), off % 4 = 0 → 0x40 ≤ off → off < 0x60 → s.busy = true →
    s.pending = readEvent off :: rest →
      step s = .next (answered (.data ((Config.freeValue s.draws).setWidth 32)) rest { s with draws := s.draws + 1 })) ∧
  (∀ (s : State) (rest : List Event) (off : Nat), off < 0x100 → off % 4 = 0 → off < 0x40 ∨ 0x60 ≤ off →
    s.busy = true → s.pending = readEvent off :: rest →
      step s = .next (answered (.data (regValue (regAt off) s)) rest s))

/-- 20_memory.md section 2: an access of another width or alignment gets a bus error, changes nothing, WERR included, and a
read so answered carries unspecified data. Three points are the model's choice: the count of draws (notes/assumptions/2.md),
that an access which straddles the end of the window is the block's (notes/assumptions/9.md), and that the error is an answer
after which the machine goes on (notes/assumptions/10.md). -/
def Obligations.BusErrorChangesNothing : Prop :=
  ∀ (s : State) (rest : List Event) (a : Access) (off : Nat), off < 0x100 → a.addr = Config.taesBase + off →
    a.width ≠ .w32 ∨ off % 4 ≠ 0 → s.pending = .access a :: rest →
      ∃ r n, step s = .next (answered r rest { s with draws := n }) ∧
        (a.kind = .read → n = s.draws + 1 ∧ ∃ v, r = .readError v) ∧
        (∀ d, a.kind = .write d → n = s.draws ∧ r = .writeError)

/-- 20_memory.md section 2: the byte lanes of a read and of a write. -/
def Obligations.ByteLanesAreLittleEndian : Prop :=
  (∀ (n j : Nat) (a : Vector Byte n), readLanes a j =
    (byteAt a (4 * j)).setWidth 32 ||| ((byteAt a (4 * j + 1)).setWidth 32 <<< 8)
      ||| ((byteAt a (4 * j + 2)).setWidth 32 <<< 16) ||| ((byteAt a (4 * j + 3)).setWidth 32 <<< 24)) ∧
  (∀ (n j k : Nat) (a : Vector Byte n) (v : Word), k < 4 → 4 * j + k < n →
    byteAt (writeLanes a j v) (4 * j + k) = (v >>> (8 * k)).setWidth 8) ∧
  (∀ (n j i : Nat) (a : Vector Byte n) (v : Word), i < n → i / 4 ≠ j →
    byteAt (writeLanes a j v) i = byteAt a i) ∧
  (∀ (n j : Nat) (a : Vector Byte n) (v : Word), 4 * j + 3 < n → readLanes (writeLanes a j v) j = v)

/-- 20_memory.md section 1: an access outside the window is not the block's (that it is unseen is the model's choice,
notes/assumptions/9.md). -/
def Obligations.AccessOutsideWindowIsUnseen : Prop :=
  ∀ (s : State) (rest : List Event) (a : Access),
    a.addr < Config.taesBase ∨ Config.taesBase + 0x100 ≤ a.addr → s.pending = .access a :: rest →
      step s = .next { s with pending := rest }

/-- 20_memory.md section 4 (its inference on when a command reads its operands): while a command runs, nothing but its
completion or a reset changes CTRL, KEY, TWEAK, BLK, RK, KSIZE or KEYED. -/
def Obligations.BusyHoldsTheOperands : Prop :=
  ∀ s t : State, step s = .next t → s.busy = true →
    t.busy = true ∧ t.ctrl = s.ctrl ∧ t.key = s.key ∧ t.tweak = s.tweak ∧ t.blk = s.blk ∧ t.rk = s.rk ∧
      t.ksize = s.ksize ∧ t.keyed = s.keyed ∨
    CompletesNext s (decode s.ctrl) ∨ ∃ rest, s.pending = .reset none :: rest

/-- 60_exceptions.md section 3 (R287), 10_state.md section 3 (R41) and section 4 (R44): with BUSY = 0 the block only waits.
With nothing pending, at a completion event and at a phase walk nothing changes (that such events may stand there is the
model's choice, notes/assumptions/1.md); and no step but a write in the window or a reset changes any register. -/
def Obligations.IdleBlockWaits : Prop :=
  (∀ s : State, s.busy = false → s.pending = [] → step s = .next s) ∧
  (∀ (s : State) (rest : List Event), s.busy = false → s.pending = .complete :: rest →
    step s = .next { s with pending := rest }) ∧
  (∀ (s : State) (rest : List Event), s.busy = false → s.seq = .idle → s.pending = .advance :: rest →
    step s = .next { s with pending := rest }) ∧
  (∀ s t : State, step s = .next t → s.busy = false →
    (∀ off d rest, off < 0x100 → off % 4 = 0 → s.pending ≠ writeEvent off d :: rest) →
    (∀ rest, s.pending ≠ .reset none :: rest) →
      t.ctrl = s.ctrl ∧ t.busy = s.busy ∧ t.keyed = s.keyed ∧ t.werr = s.werr ∧ t.err = s.err ∧ t.ksize = s.ksize ∧
        t.key = s.key ∧ t.tweak = s.tweak ∧ t.blk = s.blk ∧ t.rk = s.rk ∧ (s.seq = .idle → t.seq = .idle))

/-! ## Rules of the whole machine -/

/-- 10_state.md sections 3 and 4: the invariants hold at reset. -/
def Obligations.InvariantHoldsAtReset : Prop := Inv State.reset

/-- 10_state.md sections 3 and 4 (R39, R44, R47): every step keeps the invariants, from every state that has them. -/
def Obligations.EveryStepKeepsTheInvariant : Prop :=
  ∀ s t : State, Inv s → step s = .next t → Inv t

/-- 10_state.md R39: the values of KSIZE, its tie to KEYED, and who writes it. -/
def Obligations.KeySizeTracksKeyed : Prop :=
  State.reset.ksize = 0 ∧
  (∀ s t : State, step s = .next t →
    (if s.keyed then s.ksize = 16 ∨ s.ksize = 24 ∨ s.ksize = 32 else s.ksize = 0) →
    (if t.keyed then t.ksize = 16 ∨ t.ksize = 24 ∨ t.ksize = 32 else t.ksize = 0)) ∧
  (∀ s t : State, step s = .next t → t.ksize ≠ s.ksize → ContextIsReplacedNext s)

/-- 10_state.md section 3 (R43): the round-key store and KEYED change only when an INIT or a CLEANUP completes or the
block is reset; so no tweak write and no TWEAK_INC changes a round key. -/
def Obligations.RoundKeysChangeOnlyWithTheContext : Prop :=
  ∀ s t : State, step s = .next t → t.rk ≠ s.rk ∨ t.keyed ≠ s.keyed → ContextIsReplacedNext s

/-- 10_state.md section 3 (R40): the key buffer cannot be read back. Two states that differ only in KEY step alike, and
the results again differ at most in KEY, unless an INIT completes. -/
def Obligations.KeyBufferIsNeverReadBack : Prop :=
  ∀ (s t : State) (key : KeyBuffer), (∀ ksz tz, ¬ CompletesNext s (.init ksz tz)) → step s = .next t →
    ∃ key', step { s with key := key } = .next { t with key := key' }

/-- 10_state.md section 3 (R43): the round keys can be observed only through ADDRK, ENCRYPT and DECRYPT. Two states that
differ only in RK step alike, and the results again differ at most in RK, unless one of those completes. -/
def Obligations.RoundKeysAreSeenOnlyThroughCiphers : Prop :=
  ∀ (s t : State) (rk : RoundKeys),
    (∀ idx, ¬ CompletesNext s (.addRk idx)) → ¬ CompletesNext s .encrypt → ¬ CompletesNext s .decrypt →
    step s = .next t → ∃ rk', step { s with rk := rk } = .next { t with rk := rk' }

/-- 60_exceptions.md section 2 (R278) and 70_reset_and_hazards.md section 1: a step stops in one case only, a host access
that coincides with a reset, which the platform must not issue (notes/assumptions/7.md). -/
def Obligations.StepStopsOnlyOnCoincidentReset : Prop :=
  (∀ s : State, (∀ a rest, s.pending ≠ .reset (some a) :: rest) → ∃ t, step s = .next t) ∧
  (∀ (s : State) (a : Access) (rest : List Event), s.pending = .reset (some a) :: rest →
    step s = .refused .accessCoincidesWithReset)

/-- 70_reset_and_hazards.md section 4 (R310) and 43_cipher_core.md R200: a busy block completes (or is reset), whatever
finite sequence of events comes first (that it completes once no event is pending is the model's choice,
notes/assumptions/1.md). -/
def Obligations.BusyBlockCompletes : Prop :=
  ∀ s : State, s.busy = true → (∀ a, Event.reset (some a) ∉ s.pending) →
    ∃ k t, k ≤ s.pending.length + 1 ∧ Host.Core.run Sys2Proof.core k s = .next t ∧ t.busy = false

/-- 70_reset_and_hazards.md section 1 (R301): CLEANUP and then a STATUS write with bit 2 set bring the block to its reset
state, but for CTRL. -/
def Obligations.CleanupAndStatusWriteResetTheBlock : Prop :=
  ∀ s : State, s.busy = false → s.pending = [writeEvent 0x04 0x4, .complete, writeEvent 0x08 0x4] →
    Host.Core.run Sys2Proof.core 3 s = .next
      { State.reset with ctrl := 0x4, responses := .written :: .written :: s.responses, draws := s.draws }

/-- 10_state.md section 4 (R44) and 70_reset_and_hazards.md section 4 (R316): the sequencer walks the phases of its
command in order, the walk changes nothing but SEQ, and the phases are, one by one and in number, those of R44: `KEXP(i)` from
`i = Nk` on for INIT, rounds upwards for ENCRYPT and downwards for DECRYPT between INITIAL and FINAL. (That a command that
fails for want of a legal size or a context has one phase is the model's choice, notes/assumptions/5.md, and not stated.) -/
def Obligations.SequencerWalksThePhasesInOrder : Prop :=
  (∀ (s : State) (w : Word) (k : Nat) (ph : Phase),
    s.seq = .run w (firstPhase w s) → s.pending = List.replicate k .advance →
    (phases (decode w) s.keyed s.ksize.toNat)[k]? = some ph →
      Host.Core.run Sys2Proof.core k s = .next { s with seq := .run w ph, pending := [] }) ∧
  (∀ ksz nk nr : Nat, (ksz = 16 ∧ nk = 4 ∧ nr = 10) ∨ (ksz = 24 ∧ nk = 6 ∧ nr = 12) ∨ (ksz = 32 ∧ nk = 8 ∧ nr = 14) →
    (∀ tz keyed ksize, (phases (.init ksz tz) keyed ksize).length = 4 * (nr + 1) - nk ∧
      ∀ k, k < 4 * (nr + 1) - nk → (phases (.init ksz tz) keyed ksize)[k]? = some (.kexp (nk + k))) ∧
    (phases .encrypt true ksz).length = nr + 1 ∧ (phases .encrypt true ksz)[0]? = some .initial ∧
    (∀ r, 1 ≤ r → r < nr → (phases .encrypt true ksz)[r]? = some (.round r)) ∧
    (phases .encrypt true ksz)[nr]? = some .final ∧
    (phases .decrypt true ksz).length = nr + 1 ∧ (phases .decrypt true ksz)[0]? = some .initial ∧
    (∀ r, 1 ≤ r → r < nr → (phases .decrypt true ksz)[r]? = some (.round (nr - r))) ∧
    (phases .decrypt true ksz)[nr]? = some .final) ∧
  (∀ i k sz, (∀ ksz tz, i ≠ .init ksz tz) → i ≠ .encrypt → i ≠ .decrypt → phases i k sz = [.one])

/-! ## GF(2^8) -/

/-- 40_gf_arith.md section 1: doubling with reduction (R121), and the MixColumns multipliers as doublings and sums (its
inference R123). -/
def Obligations.DoublingAndMultipliers : Prop :=
  (∀ a : Byte, (xtime a).toNat = if a.toNat < 128 then 2 * a.toNat else (2 * a.toNat) ^^^ 0x11B) ∧
  (∀ x : Byte, gmul x 1 = x ∧ gmul x 2 = timesBy 2 x ∧ gmul x 3 = timesBy 3 x ∧ gmul x 9 = timesBy 9 x ∧
    gmul x 11 = timesBy 11 x ∧ gmul x 13 = timesBy 13 x ∧ gmul x 14 = timesBy 14 x)

/-- 40_gf_arith.md section 1 (its field laws, general knowledge there): multiplication is commutative and associative,
distributes over exclusive-or, has the identity 1 and the zero 0, and every nonzero byte has exactly one inverse. -/
def Obligations.GfFieldLaws : Prop :=
  (∀ a b : Byte, gmul a b = gmul b a) ∧
  (∀ a b c : Byte, gmul (gmul a b) c = gmul a (gmul b c)) ∧
  (∀ a b c : Byte, gmul a (b ^^^ c) = gmul a b ^^^ gmul a c) ∧
  (∀ a : Byte, gmul a 1 = a ∧ gmul a 0 = 0) ∧
  (∀ a : Byte, a ≠ 0 → ∃ b, gmul a b = 1 ∧ ∀ c, gmul a c = 1 → c = b)

/-- 40_gf_arith.md R125: GFMUL, its corner cases, and that multiplying by an inverse undoes it. -/
def Obligations.GfMulMultipliesEveryByte : Prop :=
  (∀ (gfc : Byte) (s : State), ∃ b, exec (.gfMul gfc) s = .next { s with blk := b, err := 0, busy := false, seq := .idle } ∧
    (∀ i, i < 16 → byteAt b i = gmul (byteAt s.blk i) gfc) ∧
    (gfc = 0 → b = zeroBytes 16) ∧ (gfc = 1 → b = s.blk) ∧
    (gfc = 2 → ∀ i, i < 16 → byteAt b i = xtime (byteAt s.blk i))) ∧
  (∀ (c d : Byte) (s t : State), gmul c d = 1 → exec (.gfMul c) s = .next t →
    ∃ u, exec (.gfMul d) t = .next u ∧ u.blk = s.blk)

/-! ## The key schedule and INIT -/

/-- 41_key_schedule.md R142, R143: the word operations and the round constants. -/
def Obligations.WordOperationsAndRoundConstants : Prop :=
  (∀ w : Word, rotWord w = w.rotateLeft 8) ∧
  (∀ w : Word, subWord w =
    ((sbox ((w >>> 24).setWidth 8)).setWidth 32 <<< 24) ||| ((sbox ((w >>> 16).setWidth 8)).setWidth 32 <<< 16)
      ||| ((sbox ((w >>> 8).setWidth 8)).setWidth 32 <<< 8) ||| (sbox (w.setWidth 8)).setWidth 32) ∧
  (∀ j, rconWord j = (rcon j).setWidth 32 <<< 24) ∧
  (List.range' 1 10).map rcon = [0x01, 0x02, 0x04, 0x08, 0x10, 0x20, 0x40, 0x80, 0x1B, 0x36] ∧
  rotWord 0x0C0D0E0F#32 = 0x0D0E0F0C#32 ∧ subWord 0x0D0E0F0C#32 = 0xD7AB76FE#32

/-- 41_key_schedule.md R141, R144: the key words, the recurrence at every index, and the serialization of the round
keys; the store past `RK[Nr]` is zero. -/
def Obligations.KeyExpansionRecurrence : Prop :=
  ∀ (key : KeyBuffer) (ksz nk nr : Nat),
    (ksz = 16 ∧ nk = 4 ∧ nr = 10) ∨ (ksz = 24 ∧ nk = 6 ∧ nr = 12) ∨ (ksz = 32 ∧ nk = 8 ∧ nr = 14) →
    (expandedWords key ksz).length = 4 * (nr + 1) ∧
    (∀ j, j < nk → wordAt (expandedWords key ksz) j =
      ((byteAt key (4 * j)).setWidth 32 <<< 24) ||| ((byteAt key (4 * j + 1)).setWidth 32 <<< 16)
        ||| ((byteAt key (4 * j + 2)).setWidth 32 <<< 8) ||| (byteAt key (4 * j + 3)).setWidth 32) ∧
    (∀ i, nk ≤ i → i < 4 * (nr + 1) → wordAt (expandedWords key ksz) i =
      wordAt (expandedWords key ksz) (i - nk) ^^^
        (if i % nk = 0 then
          subWord (rotWord (wordAt (expandedWords key ksz) (i - 1))) ^^^ ((rcon (i / nk)).setWidth 32 <<< 24)
        else if 6 < nk ∧ i % nk = 4 then subWord (wordAt (expandedWords key ksz) (i - 1))
        else wordAt (expandedWords key ksz) (i - 1))) ∧
    (∀ j i, j < 15 → i < 16 → byteAt (roundKeyAt (expandKey key ksz) j) i =
      if j ≤ nr then (wordAt (expandedWords key ksz) (4 * j + i / 4) >>> (8 * (3 - i % 4))).setWidth 8 else 0)

/-- 41_key_schedule.md R145: INIT with a legal size. -/
def Obligations.InitLoadsTheContext : Prop :=
  ∀ (s : State) (ksz : Nat) (tz : Bool), ksz = 16 ∨ ksz = 24 ∨ ksz = 32 →
    ∃ t, exec (.init ksz tz) s = .next t ∧
      t.rk = expandKey s.key ksz ∧ t.keyed = true ∧ t.tweak = (if tz then zeroBytes 16 else s.tweak) ∧
      t.key = zeroBytes 32 ∧ t.err = 0 ∧ t.busy = false ∧ t.seq = .idle ∧
      t = { s with rk := t.rk, ksize := t.ksize, keyed := t.keyed, tweak := t.tweak, key := t.key, err := t.err, busy := t.busy, seq := t.seq } ∧
      t.ksize.toNat = ksz ∧
      infoWord t = if ksz = 16 then 0x00045A10#32 else if ksz = 24 then 0x00066C18#32 else 0x00087E20#32

/-- 41_key_schedule.md R146: INIT with an illegal size destroys the context and reports INVALID_KEY_SIZE. -/
def Obligations.InitIllegalSizeDestroysTheContext : Prop :=
  ∀ (s : State) (ksz : Nat) (tz : Bool), ksz ≠ 16 → ksz ≠ 24 → ksz ≠ 32 →
    exec (.init ksz tz) s = .next
      { s with key := zeroBytes 32, rk := zeroRoundKeys, tweak := zeroBytes 16, ksize := 0, keyed := false, err := 1, busy := false, seq := .idle }

/-- 41_key_schedule.md R147: the key bytes at index `ksz` and above do not matter to an INIT with a legal size, and are
cleared like the rest. -/
def Obligations.InitIgnoresKeyBytesBeyondTheSize : Prop :=
  ∀ (s : State) (key : KeyBuffer) (ksz : Nat) (tz : Bool), ksz = 16 ∨ ksz = 24 ∨ ksz = 32 →
    (∀ i, i < ksz → byteAt key i = byteAt s.key i) →
      ∃ t, exec (.init ksz tz) { s with key := key } = .next t ∧ exec (.init ksz tz) s = .next t ∧
        ∀ i, i < 32 → byteAt t.key i = 0

/-! ## The round primitives -/

/-- 42_round_primitives.md R161: SBOX is the affine map of the field inverse, with `inv(0) = 0`. -/
def Obligations.SboxConstruction : Prop :=
  ∀ a : Byte, ∃ b : Byte, (if a = 0 then b = 0 else gmul a b = 1) ∧
    sbox a = b ^^^ b.rotateLeft 1 ^^^ b.rotateLeft 2 ^^^ b.rotateLeft 3 ^^^ b.rotateLeft 4 ^^^ 0x63

/-- 42_round_primitives.md R163, R164, R170, R171: SUBBYTES and INVSUBBYTES. -/
def Obligations.SubBytesCommands : Prop :=
  ∀ s : State,
    (∃ b, exec .subBytes s = .next { s with blk := b, err := 0, busy := false, seq := .idle } ∧
      ∀ i, i < 16 → byteAt b i = sbox (byteAt s.blk i)) ∧
    (∃ b, exec .invSubBytes s = .next { s with blk := b, err := 0, busy := false, seq := .idle } ∧
      ∀ i, i < 16 → byteAt b i = invSbox (byteAt s.blk i))

/-- 42_round_primitives.md R165, R166, R172, R173: SHIFTROWS and INVSHIFTROWS, by row and column. -/
def Obligations.ShiftRowsCommands : Prop :=
  ∀ s : State,
    (∃ b, exec .shiftRows s = .next { s with blk := b, err := 0, busy := false, seq := .idle } ∧
      ∀ r c, r < 4 → c < 4 → byteAt b (r + 4 * c) = byteAt s.blk (r + 4 * ((c + r) % 4))) ∧
    (∃ b, exec .invShiftRows s = .next { s with blk := b, err := 0, busy := false, seq := .idle } ∧
      ∀ r c, r < 4 → c < 4 → byteAt b (r + 4 * ((c + r) % 4)) = byteAt s.blk (r + 4 * c))

/-- 42_round_primitives.md R167, R168, R174, R175: MIXCOLUMNS and INVMIXCOLUMNS, column by column. -/
def Obligations.MixColumnsCommands : Prop :=
  ∀ s : State,
    (∃ b, exec .mixColumns s = .next { s with blk := b, err := 0, busy := false, seq := .idle } ∧
      ∀ c, c < 4 →
        let a := fun r => byteAt s.blk (4 * c + r)
        byteAt b (4 * c) = timesBy 2 (a 0) ^^^ timesBy 3 (a 1) ^^^ a 2 ^^^ a 3 ∧
        byteAt b (4 * c + 1) = a 0 ^^^ timesBy 2 (a 1) ^^^ timesBy 3 (a 2) ^^^ a 3 ∧
        byteAt b (4 * c + 2) = a 0 ^^^ a 1 ^^^ timesBy 2 (a 2) ^^^ timesBy 3 (a 3) ∧
        byteAt b (4 * c + 3) = timesBy 3 (a 0) ^^^ a 1 ^^^ a 2 ^^^ timesBy 2 (a 3)) ∧
    (∃ b, exec .invMixColumns s = .next { s with blk := b, err := 0, busy := false, seq := .idle } ∧
      ∀ c, c < 4 →
        let a := fun r => byteAt s.blk (4 * c + r)
        byteAt b (4 * c) = timesBy 14 (a 0) ^^^ timesBy 11 (a 1) ^^^ timesBy 13 (a 2) ^^^ timesBy 9 (a 3) ∧
        byteAt b (4 * c + 1) = timesBy 9 (a 0) ^^^ timesBy 14 (a 1) ^^^ timesBy 11 (a 2) ^^^ timesBy 13 (a 3) ∧
        byteAt b (4 * c + 2) = timesBy 13 (a 0) ^^^ timesBy 9 (a 1) ^^^ timesBy 14 (a 2) ^^^ timesBy 11 (a 3) ∧
        byteAt b (4 * c + 3) = timesBy 11 (a 0) ^^^ timesBy 13 (a 1) ^^^ timesBy 9 (a 2) ^^^ timesBy 14 (a 3))

/-- 42_round_primitives.md section 1 (its inferences R162 and R177): INV_SBOX is the inverse permutation of SBOX; each
primitive and its counterpart are inverse, both ways, on every block; SubBytes commutes with ShiftRows and is not its own
inverse. -/
def Obligations.PrimitivesAreInversePairs : Prop :=
  (∀ a : Byte, invSbox (sbox a) = a ∧ sbox (invSbox a) = a) ∧
  (∀ b : Block, invSubBytes (subBytes b) = b ∧ subBytes (invSubBytes b) = b) ∧
  (∀ b : Block, invShiftRows (shiftRows b) = b ∧ shiftRows (invShiftRows b) = b) ∧
  (∀ b : Block, invMixColumns (mixColumns b) = b ∧ mixColumns (invMixColumns b) = b) ∧
  (∀ b : Block, subBytes (shiftRows b) = shiftRows (subBytes b)) ∧
  subBytes (subBytes (zeroBytes 16)) ≠ zeroBytes 16

/-- 42_round_primitives.md R176: ADDRK without a context, with an index past `Nr`, and on a
legal index, where the tweak enters at `TR` only. -/
def Obligations.AddRkAddsTheEffectiveRoundKey : Prop :=
  (∀ (s : State) (idx : Nat), s.keyed = false →
    exec (.addRk idx) s = .next { s with err := 2, busy := false, seq := .idle }) ∧
  (∀ (s : State) (idx nr tr : Nat), s.keyed = true → ContextShape s nr tr → nr < idx →
    exec (.addRk idx) s = .next { s with err := 4, busy := false, seq := .idle }) ∧
  (∀ (s : State) (idx nr tr : Nat), s.keyed = true → ContextShape s nr tr → idx ≤ nr →
    ∃ b, exec (.addRk idx) s = .next { s with blk := b, err := 0, busy := false, seq := .idle } ∧
      IsAddEffRoundKey s.rk s.tweak tr idx s.blk b)

/-! ## The cipher core -/

/-- 43_cipher_core.md R192, R193: ENCRYPT, with the state after every phase of the pipeline. -/
def Obligations.EncryptRunsThePipeline : Prop :=
  (∀ s : State, s.keyed = false → exec .encrypt s = .next { s with err := 2, busy := false, seq := .idle }) ∧
  (∀ (s : State) (nr tr : Nat), s.keyed = true → ContextShape s nr tr →
    ∃ st : Nat → Block,
      IsAddEffRoundKey s.rk s.tweak tr 0 s.blk (st 0) ∧
      (∀ r, 1 ≤ r → r < nr →
        IsAddEffRoundKey s.rk s.tweak tr r (mixColumns (shiftRows (subBytes (st (r - 1))))) (st r)) ∧
      IsAddEffRoundKey s.rk s.tweak tr nr (shiftRows (subBytes (st (nr - 1)))) (st nr) ∧
      exec .encrypt s = .next { s with blk := st nr, err := 0, busy := false, seq := .idle })

/-- 43_cipher_core.md R194, R195: DECRYPT, with the state after every phase of the pipeline. -/
def Obligations.DecryptRunsTheInversePipeline : Prop :=
  (∀ s : State, s.keyed = false → exec .decrypt s = .next { s with err := 2, busy := false, seq := .idle }) ∧
  (∀ (s : State) (nr tr : Nat), s.keyed = true → ContextShape s nr tr →
    ∃ st : Nat → Block,
      IsAddEffRoundKey s.rk s.tweak tr nr s.blk (st nr) ∧
      (∀ r, 1 ≤ r → r < nr → ∃ y,
        IsAddEffRoundKey s.rk s.tweak tr r (invSubBytes (invShiftRows (st (r + 1)))) y ∧ st r = invMixColumns y) ∧
      IsAddEffRoundKey s.rk s.tweak tr 0 (invSubBytes (invShiftRows (st 1))) (st 0) ∧
      exec .decrypt s = .next { s with blk := st 0, err := 0, busy := false, seq := .idle })

/-- 43_cipher_core.md section 2 (R196): the round-trip contract, both ways, for all round keys, tweaks and blocks. -/
def Obligations.DecryptInvertsEncrypt : Prop :=
  ∀ (rk : RoundKeys) (nr : Nat) (t b : Block),
    taesDecrypt rk nr t (taesEncrypt rk nr t b) = b ∧ taesEncrypt rk nr t (taesDecrypt rk nr t b) = b

/-- 43_cipher_core.md section 3 (R194): at the registers, ENCRYPT and then DECRYPT with the tweak unchanged restore the
block and everything else. -/
def Obligations.EncryptThenDecryptRestoresTheBlock : Prop :=
  ∀ s : State, s.busy = false → s.keyed = true →
    s.pending = [writeEvent 0x04 0x2, .complete, writeEvent 0x04 0x3, .complete] →
    Host.Core.run Sys2Proof.core 4 s = .next
      { s with ctrl := 0x3, err := 0, seq := .idle, pending := [], responses := .written :: .written :: s.responses }

/-- 43_cipher_core.md R197: with the zero tweak every effective round key is the round key, and the pipeline is plain
AES; with the example key and plaintext it gives the known answer. -/
def Obligations.ZeroTweakIsAes : Prop :=
  (∀ (rk : RoundKeys) (nr j : Nat), effRoundKey rk (zeroBytes 16) nr j = roundKeyAt rk j) ∧
  (∀ (rk : RoundKeys) (nr : Nat) (b : Block),
    taesEncrypt rk nr (zeroBytes 16) b = plainAesEncrypt rk nr b ∧
    taesDecrypt rk nr (zeroBytes 16) b = plainAesDecrypt rk nr b) ∧
  taesEncrypt (expandKey (Vector.ofFn fun i => BitVec.ofNat 8 i.val) 16) 10 (zeroBytes 16) (rampBlock 0x11)
    = #v[0x69, 0xc4, 0xe0, 0xd8, 0x6a, 0x7b, 0x04, 0x30, 0xd8, 0xcd, 0xb7, 0x80, 0x70, 0xb4, 0xc5, 0x5a]

/-- 43_cipher_core.md section 2 (its inference on equivalent implementations, R199): the equivalent inverse cipher, with
InvMixColumns applied to the tweaked round keys, computes TAESDecrypt. -/
def Obligations.EquivalentInverseCipherDecrypts : Prop :=
  ∀ (rk : RoundKeys) (nr : Nat) (t c : Block), equivalentInverseCipher rk nr t c = taesDecrypt rk nr t c

/-- 60_exceptions.md section 3 (R286), 43_cipher_core.md section 2 (R193) and 95_test_vectors.md program P3: the primitive
commands, written to CTRL of an idle block and completed round by round, leave the block that ENCRYPT leaves, and the same
context. -/
def Obligations.SteppedPrimitivesEqualEncrypt : Prop :=
  ∀ (s : State) (nr tr : Nat), s.busy = false → s.keyed = true → ContextShape s nr tr →
    s.pending = issueEvents (steppedEncryption nr) →
    ∃ t u, Host.Core.run Sys2Proof.core s.pending.length s = .next t ∧ exec .encrypt s = .next u ∧
      t = { u with ctrl := t.ctrl, pending := [], responses := t.responses }

/-! ## Context commands and the reserved opcodes -/

/-- 44_context_ops.md R220, R221: NOP and CLEANUP; and the completion of the reserved opcodes (30_encoding.md section 2). -/
def Obligations.NopCleanupAndReserved : Prop :=
  (∀ s : State, exec .nop s = .next { s with err := 0, busy := false, seq := .idle }) ∧
  (∀ s : State, exec .cleanup s = .next
    { s with rk := zeroRoundKeys, tweak := zeroBytes 16, key := zeroBytes 32, blk := zeroBytes 16, ksize := 0, keyed := false, err := 0, busy := false, seq := .idle }) ∧
  (∀ (s : State) (odd : Bool), exec (.reserved67 odd) s = .next { s with err := 3, busy := false, seq := .idle })

/-- 44_context_ops.md R222: TWEAK_INC adds one to the 128-bit little-endian number, wrapping silently. -/
def Obligations.TweakIncAddsOne : Prop :=
  ∀ s : State, ∃ t, exec .tweakInc s = .next { s with tweak := t, err := 0, busy := false, seq := .idle } ∧
    (((List.range 16).map fun i => (byteAt t i).toNat * 2 ^ (8 * i)).sum =
      (((List.range 16).map fun i => (byteAt s.tweak i).toNat * 2 ^ (8 * i)).sum + 1) % 2 ^ 128)

/-! ## The host-side mode of operation -/

/-- 48_host_mode.md R241: an input of at most one block is rejected, with no command issued and nothing changed. -/
def Obligations.ModeRejectsShortInput : Prop :=
  ∀ (rk : RoundKeys) (nr : Nat) (buf : List Byte) (t0 : Block) (s : State), buf.length ≤ 16 →
    modeEncrypt rk nr buf t0 = .error .modeLength ∧ modeDecrypt rk nr buf t0 = .error .modeLength ∧
    modeEncryptHost buf s = (.error .modeLength, s) ∧ modeDecryptHost buf s = (.error .modeLength, s)

/-- 48_host_mode.md section 1: the tweak has advanced once per block, the partial block counted (R246), and the output is as
long as the input (its inference R244). -/
def Obligations.ModeKeepsLengthAndAdvancesTweak : Prop :=
  ∀ (rk : RoundKeys) (nr : Nat) (buf : List Byte) (t0 : Block), 16 < buf.length →
    (∃ out, modeEncrypt rk nr buf t0 = .ok (out, tweakAfter t0 ((buf.length + 15) / 16)) ∧ out.length = buf.length) ∧
    (∃ out, modeDecrypt rk nr buf t0 = .ok (out, tweakAfter t0 ((buf.length + 15) / 16)) ∧ out.length = buf.length)

/-- 48_host_mode.md section 1 (R247): the mode round trip, stealing included. -/
def Obligations.ModeRoundTrip : Prop :=
  ∀ (rk : RoundKeys) (nr : Nat) (pt ct : List Byte) (t0 t1 : Block),
    modeEncrypt rk nr pt t0 = .ok (ct, t1) → modeDecrypt rk nr ct t0 = .ok (pt, t1)

/-- 48_host_mode.md section 2 (R248, R249): on an idle block with a context, the host procedures compute the mode
functions and leave the tweak the mode leaves. That POLL is one read after the completion, with no other event between two
accesses, is the model's choice (notes/assumptions/11.md, DESIGN CHOICE). -/
def Obligations.HostProceduresComputeTheMode : Prop :=
  ∀ (s : State) (buf out : List Byte) (t1 : Block), s.busy = false → s.keyed = true →
    (modeEncrypt s.rk (contextRounds s) buf s.tweak = .ok (out, t1) →
      (modeEncryptHost buf s).1 = .ok out ∧ (modeEncryptHost buf s).2.tweak = t1) ∧
    (modeDecrypt s.rk (contextRounds s) buf s.tweak = .ok (out, t1) →
      (modeDecryptHost buf s).1 = .ok out ∧ (modeDecryptHost buf s).2.tweak = t1)

/-- 48_host_mode.md section 2 (R250): without a context the procedures stop at the first failing command, return its error,
and leave the tweak where it stood. That POLL is one read after the completion, with no other event between two accesses, is
the model's choice (notes/assumptions/11.md, DESIGN CHOICE). -/
def Obligations.HostProceduresStopAtTheFirstError : Prop :=
  ∀ (s : State) (buf : List Byte), s.busy = false → s.keyed = false → 16 < buf.length →
    ((modeEncryptHost buf s).1 = .error (.command 2) ∧ (modeEncryptHost buf s).2.tweak = s.tweak) ∧
    ((modeDecryptHost buf s).1 = .error (.command 2) ∧
      (modeDecryptHost buf s).2.tweak = if buf.length / 16 = 1 ∧ buf.length % 16 ≠ 0 then incrementTweak s.tweak
        else s.tweak)
end

