-- ==== Sys2Proof/Laws/Bytes.lean ====
section
/-! SUPPORT. Reading one byte of a byte array, and what each block-wide function puts there. -/

namespace Sys2Proof

theorem byteAt_eq_getElem {n : Nat} (v : Vector Byte n) {i : Nat} (h : i < n) : byteAt v i = v[i] := by
  simp [byteAt, h]

theorem byteAt_ofFn {n : Nat} (f : Fin n → Byte) {i : Nat} (h : i < n) :
    byteAt (Vector.ofFn f) i = f ⟨i, h⟩ := by
  rw [byteAt_eq_getElem _ h, Vector.getElem_ofFn]

theorem byteAt_zeroBytes (n i : Nat) : byteAt (zeroBytes n) i = 0 := by
  by_cases h : i < n <;> simp [byteAt, zeroBytes, h]

/-- Two byte arrays with the same bytes are the same array. -/
theorem bytes_ext {n : Nat} {v w : Vector Byte n} (h : ∀ i, i < n → byteAt v i = byteAt w i) : v = w := by
  apply Vector.ext
  intro i hi
  have := h i hi
  rwa [byteAt_eq_getElem _ hi, byteAt_eq_getElem _ hi] at this

namespace Machine

theorem roundKeyAt_eq_getElem (rk : RoundKeys) {j : Nat} (h : j < 15) : roundKeyAt rk j = rk[j] := by
  simp [roundKeyAt, h]

theorem byteAt_addRoundKey (b k : Block) {i : Nat} (h : i < 16) :
    byteAt (addRoundKey b k) i = byteAt b i ^^^ byteAt k i := by
  rw [addRoundKey, byteAt_ofFn _ h, byteAt_eq_getElem _ h, byteAt_eq_getElem _ h]; rfl

theorem byteAt_subBytes (b : Block) {i : Nat} (h : i < 16) : byteAt (subBytes b) i = sbox (byteAt b i) := by
  rw [subBytes, byteAt_ofFn _ h, byteAt_eq_getElem _ h]; rfl

theorem byteAt_invSubBytes (b : Block) {i : Nat} (h : i < 16) :
    byteAt (invSubBytes b) i = invSbox (byteAt b i) := by
  rw [invSubBytes, byteAt_ofFn _ h, byteAt_eq_getElem _ h]; rfl

theorem byteAt_gmulBlock (b : Block) (c : Byte) {i : Nat} (h : i < 16) :
    byteAt (gmulBlock b c) i = gmul (byteAt b i) c := by
  rw [gmulBlock, byteAt_ofFn _ h, byteAt_eq_getElem _ h]; rfl

theorem byteAt_shiftRows (b : Block) {i : Nat} (h : i < 16) :
    byteAt (shiftRows b) i = byteAt b (i % 4 + 4 * ((i / 4 + i % 4) % 4)) := by
  rw [shiftRows, byteAt_ofFn _ h]; rfl

theorem byteAt_invShiftRows (b : Block) {i : Nat} (h : i < 16) :
    byteAt (invShiftRows b) i = byteAt b (i % 4 + 4 * ((i / 4 + (4 - i % 4)) % 4)) := by
  rw [invShiftRows, byteAt_ofFn _ h]; rfl

theorem byteAt_mixColumns (b : Block) {i : Nat} (h : i < 16) :
    byteAt (mixColumns b) i
      = circulant 0x02 0x03 0x01 0x01 (fun r => byteAt b (r + 4 * (i / 4))) (i % 4) := by
  rw [mixColumns, byteAt_ofFn _ h]; rfl

theorem byteAt_invMixColumns (b : Block) {i : Nat} (h : i < 16) :
    byteAt (invMixColumns b) i
      = circulant 0x0E 0x0B 0x0D 0x09 (fun r => byteAt b (r + 4 * (i / 4))) (i % 4) := by
  rw [invMixColumns, byteAt_ofFn _ h]; rfl

theorem byteAt_writeLanes {n : Nat} (a : Vector Byte n) (j : Nat) (v : Word) {i : Nat} (h : i < n) :
    byteAt (writeLanes a j v) i = if i / 4 = j then laneByte v (i % 4) else byteAt a i := by
  rw [writeLanes, byteAt_ofFn _ h, byteAt_eq_getElem _ h]; rfl

theorem byteAt_roundKeyOf (ws : List Word) (j : Nat) {i : Nat} (h : i < 16) :
    byteAt (roundKeyOf ws j) i = wordByte (wordAt ws (4 * j + i / 4)) (i % 4) := by
  rw [roundKeyOf, byteAt_ofFn _ h]

theorem byteAt_tweakOfNumber (v : Nat) {i : Nat} (h : i < 16) :
    byteAt (tweakOfNumber v) i = BitVec.ofNat 8 (v / 2 ^ (8 * i)) := by
  rw [tweakOfNumber, byteAt_ofFn _ h]

theorem byteAt_bufferBlock (buf : List Byte) (b : Nat) {i : Nat} (h : i < 16) :
    byteAt (bufferBlock buf b) i = buf.getD (16 * b + i) 0 := by
  rw [bufferBlock, byteAt_ofFn _ h]

theorem byteAt_steal (front : List Byte) (x : Block) {i : Nat} (h : i < 16) :
    byteAt (steal front x) i = front.getD i (byteAt x i) := by
  rw [steal, byteAt_ofFn _ h, byteAt_eq_getElem _ h]; rfl

theorem roundKeyAt_expandKey (key : KeyBuffer) (ksz : Nat) {j : Nat} (h : j < 15) :
    roundKeyAt (expandKey key ksz) j
      = if j ≤ roundCount ksz then roundKeyOf (expandedWords key ksz) j else zeroBytes 16 := by
  rw [roundKeyAt_eq_getElem _ h, expandKey, Vector.getElem_ofFn]

/-- Bytewise exclusive-or with a fixed round key is its own inverse (42_round_primitives.md R169). -/
theorem addRoundKey_cancel (b k : Block) : addRoundKey (addRoundKey b k) k = b := by
  apply bytes_ext
  intro i h
  rw [byteAt_addRoundKey _ _ h, byteAt_addRoundKey _ _ h, BitVec.xor_assoc, BitVec.xor_self, BitVec.xor_zero]

/-- The zero block is neutral for bytewise exclusive-or (00_scope.md R9). -/
theorem addRoundKey_zero (b : Block) : addRoundKey b (zeroBytes 16) = b := by
  apply bytes_ext
  intro i h
  rw [byteAt_addRoundKey _ _ h, byteAt_zeroBytes]
  exact BitVec.xor_zero

end Machine

end Sys2Proof
end

