-- ==== Sys2Proof/Laws/Decode.lean ====
section
/-! SUPPORT. The fields of an assembled command word (30_encoding.md R101, R108), and the bits that select a command. -/

namespace Sys2Proof

theorem getLsbD_assemble_cmd (gfc : Byte) (tz : Bool) (ksz idx : Nat) (cmd : BitVec 4) {i : Nat} (h : i < 4) :
    (assemble gfc tz ksz idx cmd).getLsbD i = cmd.getLsbD i := by
  simp only [assemble, BitVec.getLsbD_append]
  rw [if_pos h]

theorem fieldCmd_assemble (gfc : Byte) (tz : Bool) (ksz idx : Nat) (cmd : BitVec 4) :
    fieldCmd (assemble gfc tz ksz idx cmd) = cmd := by
  apply BitVec.eq_of_getLsbD_eq
  intro i h
  simp [fieldCmd, getLsbD_assemble_cmd, h]

theorem fieldIdx_assemble (gfc : Byte) (tz : Bool) (ksz idx : Nat) (cmd : BitVec 4) (h : idx < 16) :
    fieldIdx (assemble gfc tz ksz idx cmd) = idx := by
  have : (assemble gfc tz ksz idx cmd).extractLsb' 4 4 = BitVec.ofNat 4 idx := by
    apply BitVec.eq_of_getLsbD_eq
    intro i hi
    simp only [assemble, BitVec.getLsbD_append, BitVec.getLsbD_extractLsb', hi, decide_true, Bool.true_and]
    rw [if_neg (by omega), if_pos (by omega)]
    congr 1
    omega
  rw [fieldIdx, this, BitVec.toNat_ofNat, Nat.mod_eq_of_lt (by omega)]

theorem fieldKsz_assemble (gfc : Byte) (tz : Bool) (ksz idx : Nat) (cmd : BitVec 4) (h : ksz < 256) :
    fieldKsz (assemble gfc tz ksz idx cmd) = ksz := by
  have : (assemble gfc tz ksz idx cmd).extractLsb' 8 8 = BitVec.ofNat 8 ksz := by
    apply BitVec.eq_of_getLsbD_eq
    intro i hi
    simp only [assemble, BitVec.getLsbD_append, BitVec.getLsbD_extractLsb', hi, decide_true, Bool.true_and]
    rw [if_neg (by omega), if_neg (by omega), if_pos (by omega)]
    congr 1
    omega
  rw [fieldKsz, this, BitVec.toNat_ofNat, Nat.mod_eq_of_lt (by omega)]

theorem fieldTz_assemble (gfc : Byte) (tz : Bool) (ksz idx : Nat) (cmd : BitVec 4) :
    fieldTz (assemble gfc tz ksz idx cmd) = tz := by
  simp only [fieldTz, assemble, BitVec.getLsbD_append]
  rw [if_neg (by omega), if_neg (by omega), if_neg (by omega), if_pos (by omega)]
  simp

theorem fieldGfc_assemble (gfc : Byte) (tz : Bool) (ksz idx : Nat) (cmd : BitVec 4) :
    fieldGfc (assemble gfc tz ksz idx cmd) = gfc := by
  apply BitVec.eq_of_getLsbD_eq
  intro i hi
  simp only [fieldGfc, assemble, BitVec.getLsbD_append, BitVec.getLsbD_extractLsb', hi, decide_true, Bool.true_and]
  rw [if_neg (by omega), if_neg (by omega), if_neg (by omega), if_neg (by omega), if_neg (by omega)]
  congr 1
  omega

/-- The reserved bits 23:17 of an assembled word are zero (30_encoding.md R104, R108). -/
theorem reserved_assemble (gfc : Byte) (tz : Bool) (ksz idx : Nat) (cmd : BitVec 4) :
    (assemble gfc tz ksz idx cmd).extractLsb' 17 7 = 0 := by
  apply BitVec.eq_of_getLsbD_eq
  intro i hi
  simp only [assemble, BitVec.getLsbD_append, BitVec.getLsbD_extractLsb', hi, decide_true, Bool.true_and]
  rw [if_neg (by omega), if_neg (by omega), if_neg (by omega), if_neg (by omega), if_pos (by omega)]
  simp

end Sys2Proof
end

