-- ==== Sys2Proof/Laws/State.lean ====
section
/-! SUPPORT. One lemma per field for each named update of State, so that no proof unfolds an update. -/

namespace Sys2Proof.Machine

/-! Acceptance (60_exceptions.md R276). -/

@[simp] theorem accept_ctrl (w : Word) (s : State) : (accept w s).ctrl = w := rfl
@[simp] theorem accept_busy (w : Word) (s : State) : (accept w s).busy = true := rfl
@[simp] theorem accept_keyed (w : Word) (s : State) : (accept w s).keyed = s.keyed := rfl
@[simp] theorem accept_werr (w : Word) (s : State) : (accept w s).werr = s.werr := rfl
@[simp] theorem accept_err (w : Word) (s : State) : (accept w s).err = 0 := rfl
@[simp] theorem accept_ksize (w : Word) (s : State) : (accept w s).ksize = s.ksize := rfl
@[simp] theorem accept_key (w : Word) (s : State) : (accept w s).key = s.key := rfl
@[simp] theorem accept_tweak (w : Word) (s : State) : (accept w s).tweak = s.tweak := rfl
@[simp] theorem accept_blk (w : Word) (s : State) : (accept w s).blk = s.blk := rfl
@[simp] theorem accept_rk (w : Word) (s : State) : (accept w s).rk = s.rk := rfl
@[simp] theorem accept_seq (w : Word) (s : State) : (accept w s).seq = .run w (firstPhase w s) := rfl
@[simp] theorem accept_pending (w : Word) (s : State) : (accept w s).pending = s.pending := rfl
@[simp] theorem accept_responses (w : Word) (s : State) : (accept w s).responses = s.responses := rfl
@[simp] theorem accept_draws (w : Word) (s : State) : (accept w s).draws = s.draws := rfl

/-! The end of a command (60_exceptions.md R276). -/

@[simp] theorem retired_ctrl (code : ErrCode) (s : State) : (retired code s).ctrl = s.ctrl := rfl
@[simp] theorem retired_busy (code : ErrCode) (s : State) : (retired code s).busy = false := rfl
@[simp] theorem retired_keyed (code : ErrCode) (s : State) : (retired code s).keyed = s.keyed := rfl
@[simp] theorem retired_werr (code : ErrCode) (s : State) : (retired code s).werr = s.werr := rfl
@[simp] theorem retired_err (code : ErrCode) (s : State) : (retired code s).err = errNumber code := rfl
@[simp] theorem retired_ksize (code : ErrCode) (s : State) : (retired code s).ksize = s.ksize := rfl
@[simp] theorem retired_key (code : ErrCode) (s : State) : (retired code s).key = s.key := rfl
@[simp] theorem retired_tweak (code : ErrCode) (s : State) : (retired code s).tweak = s.tweak := rfl
@[simp] theorem retired_blk (code : ErrCode) (s : State) : (retired code s).blk = s.blk := rfl
@[simp] theorem retired_rk (code : ErrCode) (s : State) : (retired code s).rk = s.rk := rfl
@[simp] theorem retired_seq (code : ErrCode) (s : State) : (retired code s).seq = .idle := rfl
@[simp] theorem retired_pending (code : ErrCode) (s : State) : (retired code s).pending = s.pending := rfl
@[simp] theorem retired_responses (code : ErrCode) (s : State) : (retired code s).responses = s.responses := rfl
@[simp] theorem retired_draws (code : ErrCode) (s : State) : (retired code s).draws = s.draws := rfl

/-! Zeroing the context (41_key_schedule.md R146). -/

@[simp] theorem clearContext_ctrl (s : State) : (clearContext s).ctrl = s.ctrl := rfl
@[simp] theorem clearContext_busy (s : State) : (clearContext s).busy = s.busy := rfl
@[simp] theorem clearContext_keyed (s : State) : (clearContext s).keyed = false := rfl
@[simp] theorem clearContext_werr (s : State) : (clearContext s).werr = s.werr := rfl
@[simp] theorem clearContext_err (s : State) : (clearContext s).err = s.err := rfl
@[simp] theorem clearContext_ksize (s : State) : (clearContext s).ksize = 0 := rfl
@[simp] theorem clearContext_key (s : State) : (clearContext s).key = zeroBytes 32 := rfl
@[simp] theorem clearContext_tweak (s : State) : (clearContext s).tweak = zeroBytes 16 := rfl
@[simp] theorem clearContext_blk (s : State) : (clearContext s).blk = s.blk := rfl
@[simp] theorem clearContext_rk (s : State) : (clearContext s).rk = zeroRoundKeys := rfl
@[simp] theorem clearContext_seq (s : State) : (clearContext s).seq = s.seq := rfl
@[simp] theorem clearContext_pending (s : State) : (clearContext s).pending = s.pending := rfl
@[simp] theorem clearContext_responses (s : State) : (clearContext s).responses = s.responses := rfl
@[simp] theorem clearContext_draws (s : State) : (clearContext s).draws = s.draws := rfl

/-! Loading a context (41_key_schedule.md R145). -/

@[simp] theorem loadContext_ctrl (ksz : Nat) (tz : Bool) (s : State) : (loadContext ksz tz s).ctrl = s.ctrl := rfl
@[simp] theorem loadContext_busy (ksz : Nat) (tz : Bool) (s : State) : (loadContext ksz tz s).busy = s.busy := rfl
@[simp] theorem loadContext_keyed (ksz : Nat) (tz : Bool) (s : State) : (loadContext ksz tz s).keyed = true := rfl
@[simp] theorem loadContext_werr (ksz : Nat) (tz : Bool) (s : State) : (loadContext ksz tz s).werr = s.werr := rfl
@[simp] theorem loadContext_err (ksz : Nat) (tz : Bool) (s : State) : (loadContext ksz tz s).err = s.err := rfl
@[simp] theorem loadContext_ksize (ksz : Nat) (tz : Bool) (s : State) : (loadContext ksz tz s).ksize = BitVec.ofNat 6 ksz := rfl
@[simp] theorem loadContext_key (ksz : Nat) (tz : Bool) (s : State) : (loadContext ksz tz s).key = zeroBytes 32 := rfl
@[simp] theorem loadContext_tweak (ksz : Nat) (tz : Bool) (s : State) : (loadContext ksz tz s).tweak = if tz then zeroBytes 16 else s.tweak := rfl
@[simp] theorem loadContext_blk (ksz : Nat) (tz : Bool) (s : State) : (loadContext ksz tz s).blk = s.blk := rfl
@[simp] theorem loadContext_rk (ksz : Nat) (tz : Bool) (s : State) : (loadContext ksz tz s).rk = expandKey s.key ksz := rfl
@[simp] theorem loadContext_seq (ksz : Nat) (tz : Bool) (s : State) : (loadContext ksz tz s).seq = s.seq := rfl
@[simp] theorem loadContext_pending (ksz : Nat) (tz : Bool) (s : State) : (loadContext ksz tz s).pending = s.pending := rfl
@[simp] theorem loadContext_responses (ksz : Nat) (tz : Bool) (s : State) : (loadContext ksz tz s).responses = s.responses := rfl
@[simp] theorem loadContext_draws (ksz : Nat) (tz : Bool) (s : State) : (loadContext ksz tz s).draws = s.draws := rfl

/-! A bus answer. -/

@[simp] theorem respond_ctrl (r : Response) (s : State) : (respond r s).ctrl = s.ctrl := rfl
@[simp] theorem respond_busy (r : Response) (s : State) : (respond r s).busy = s.busy := rfl
@[simp] theorem respond_keyed (r : Response) (s : State) : (respond r s).keyed = s.keyed := rfl
@[simp] theorem respond_werr (r : Response) (s : State) : (respond r s).werr = s.werr := rfl
@[simp] theorem respond_err (r : Response) (s : State) : (respond r s).err = s.err := rfl
@[simp] theorem respond_ksize (r : Response) (s : State) : (respond r s).ksize = s.ksize := rfl
@[simp] theorem respond_key (r : Response) (s : State) : (respond r s).key = s.key := rfl
@[simp] theorem respond_tweak (r : Response) (s : State) : (respond r s).tweak = s.tweak := rfl
@[simp] theorem respond_blk (r : Response) (s : State) : (respond r s).blk = s.blk := rfl
@[simp] theorem respond_rk (r : Response) (s : State) : (respond r s).rk = s.rk := rfl
@[simp] theorem respond_seq (r : Response) (s : State) : (respond r s).seq = s.seq := rfl
@[simp] theorem respond_pending (r : Response) (s : State) : (respond r s).pending = s.pending := rfl
@[simp] theorem respond_responses (r : Response) (s : State) : (respond r s).responses = r :: s.responses := rfl
@[simp] theorem respond_draws (r : Response) (s : State) : (respond r s).draws = s.draws := rfl

/-! A draw. -/

@[simp] theorem countDraw_ctrl (s : State) : (countDraw s).ctrl = s.ctrl := rfl
@[simp] theorem countDraw_busy (s : State) : (countDraw s).busy = s.busy := rfl
@[simp] theorem countDraw_keyed (s : State) : (countDraw s).keyed = s.keyed := rfl
@[simp] theorem countDraw_werr (s : State) : (countDraw s).werr = s.werr := rfl
@[simp] theorem countDraw_err (s : State) : (countDraw s).err = s.err := rfl
@[simp] theorem countDraw_ksize (s : State) : (countDraw s).ksize = s.ksize := rfl
@[simp] theorem countDraw_key (s : State) : (countDraw s).key = s.key := rfl
@[simp] theorem countDraw_tweak (s : State) : (countDraw s).tweak = s.tweak := rfl
@[simp] theorem countDraw_blk (s : State) : (countDraw s).blk = s.blk := rfl
@[simp] theorem countDraw_rk (s : State) : (countDraw s).rk = s.rk := rfl
@[simp] theorem countDraw_seq (s : State) : (countDraw s).seq = s.seq := rfl
@[simp] theorem countDraw_pending (s : State) : (countDraw s).pending = s.pending := rfl
@[simp] theorem countDraw_responses (s : State) : (countDraw s).responses = s.responses := rfl
@[simp] theorem countDraw_draws (s : State) : (countDraw s).draws = s.draws + 1 := rfl

/-! A STATUS write (10_state.md R33). -/

@[simp] theorem writeStatus_ctrl (v : Word) (s : State) : (writeStatus v s).ctrl = s.ctrl := rfl
@[simp] theorem writeStatus_busy (v : Word) (s : State) : (writeStatus v s).busy = s.busy := rfl
@[simp] theorem writeStatus_keyed (v : Word) (s : State) : (writeStatus v s).keyed = s.keyed := rfl
@[simp] theorem writeStatus_werr (v : Word) (s : State) : (writeStatus v s).werr = if v.getLsbD 2 then false else s.werr := rfl
@[simp] theorem writeStatus_err (v : Word) (s : State) : (writeStatus v s).err = s.err := rfl
@[simp] theorem writeStatus_ksize (v : Word) (s : State) : (writeStatus v s).ksize = s.ksize := rfl
@[simp] theorem writeStatus_key (v : Word) (s : State) : (writeStatus v s).key = s.key := rfl
@[simp] theorem writeStatus_tweak (v : Word) (s : State) : (writeStatus v s).tweak = s.tweak := rfl
@[simp] theorem writeStatus_blk (v : Word) (s : State) : (writeStatus v s).blk = s.blk := rfl
@[simp] theorem writeStatus_rk (v : Word) (s : State) : (writeStatus v s).rk = s.rk := rfl
@[simp] theorem writeStatus_seq (v : Word) (s : State) : (writeStatus v s).seq = s.seq := rfl
@[simp] theorem writeStatus_pending (v : Word) (s : State) : (writeStatus v s).pending = s.pending := rfl
@[simp] theorem writeStatus_responses (v : Word) (s : State) : (writeStatus v s).responses = s.responses := rfl
@[simp] theorem writeStatus_draws (v : Word) (s : State) : (writeStatus v s).draws = s.draws := rfl

/-! A dropped write (10_state.md R36). -/

@[simp] theorem dropWrite_ctrl (s : State) : (dropWrite s).ctrl = s.ctrl := rfl
@[simp] theorem dropWrite_busy (s : State) : (dropWrite s).busy = s.busy := rfl
@[simp] theorem dropWrite_keyed (s : State) : (dropWrite s).keyed = s.keyed := rfl
@[simp] theorem dropWrite_werr (s : State) : (dropWrite s).werr = true := rfl
@[simp] theorem dropWrite_err (s : State) : (dropWrite s).err = s.err := rfl
@[simp] theorem dropWrite_ksize (s : State) : (dropWrite s).ksize = s.ksize := rfl
@[simp] theorem dropWrite_key (s : State) : (dropWrite s).key = s.key := rfl
@[simp] theorem dropWrite_tweak (s : State) : (dropWrite s).tweak = s.tweak := rfl
@[simp] theorem dropWrite_blk (s : State) : (dropWrite s).blk = s.blk := rfl
@[simp] theorem dropWrite_rk (s : State) : (dropWrite s).rk = s.rk := rfl
@[simp] theorem dropWrite_seq (s : State) : (dropWrite s).seq = s.seq := rfl
@[simp] theorem dropWrite_pending (s : State) : (dropWrite s).pending = s.pending := rfl
@[simp] theorem dropWrite_responses (s : State) : (dropWrite s).responses = s.responses := rfl
@[simp] theorem dropWrite_draws (s : State) : (dropWrite s).draws = s.draws := rfl

/-! Reset (70_reset_and_hazards.md R300). -/

@[simp] theorem resetBlock_ctrl (s : State) : (resetBlock s).ctrl = State.reset.ctrl := rfl
@[simp] theorem resetBlock_busy (s : State) : (resetBlock s).busy = State.reset.busy := rfl
@[simp] theorem resetBlock_keyed (s : State) : (resetBlock s).keyed = State.reset.keyed := rfl
@[simp] theorem resetBlock_werr (s : State) : (resetBlock s).werr = State.reset.werr := rfl
@[simp] theorem resetBlock_err (s : State) : (resetBlock s).err = State.reset.err := rfl
@[simp] theorem resetBlock_ksize (s : State) : (resetBlock s).ksize = State.reset.ksize := rfl
@[simp] theorem resetBlock_key (s : State) : (resetBlock s).key = State.reset.key := rfl
@[simp] theorem resetBlock_tweak (s : State) : (resetBlock s).tweak = State.reset.tweak := rfl
@[simp] theorem resetBlock_blk (s : State) : (resetBlock s).blk = State.reset.blk := rfl
@[simp] theorem resetBlock_rk (s : State) : (resetBlock s).rk = State.reset.rk := rfl
@[simp] theorem resetBlock_seq (s : State) : (resetBlock s).seq = State.reset.seq := rfl
@[simp] theorem resetBlock_pending (s : State) : (resetBlock s).pending = s.pending := rfl
@[simp] theorem resetBlock_responses (s : State) : (resetBlock s).responses = s.responses := rfl
@[simp] theorem resetBlock_draws (s : State) : (resetBlock s).draws = s.draws := rfl
/-! The events still to come (20_memory.md R80). -/

@[simp] theorem withPending_ctrl (rest : List Event) (s : State) : (withPending rest s).ctrl = s.ctrl := rfl
@[simp] theorem withPending_busy (rest : List Event) (s : State) : (withPending rest s).busy = s.busy := rfl
@[simp] theorem withPending_keyed (rest : List Event) (s : State) : (withPending rest s).keyed = s.keyed := rfl
@[simp] theorem withPending_werr (rest : List Event) (s : State) : (withPending rest s).werr = s.werr := rfl
@[simp] theorem withPending_err (rest : List Event) (s : State) : (withPending rest s).err = s.err := rfl
@[simp] theorem withPending_ksize (rest : List Event) (s : State) : (withPending rest s).ksize = s.ksize := rfl
@[simp] theorem withPending_key (rest : List Event) (s : State) : (withPending rest s).key = s.key := rfl
@[simp] theorem withPending_tweak (rest : List Event) (s : State) : (withPending rest s).tweak = s.tweak := rfl
@[simp] theorem withPending_blk (rest : List Event) (s : State) : (withPending rest s).blk = s.blk := rfl
@[simp] theorem withPending_rk (rest : List Event) (s : State) : (withPending rest s).rk = s.rk := rfl
@[simp] theorem withPending_seq (rest : List Event) (s : State) : (withPending rest s).seq = s.seq := rfl
@[simp] theorem withPending_pending (rest : List Event) (s : State) : (withPending rest s).pending = rest := rfl
@[simp] theorem withPending_responses (rest : List Event) (s : State) : (withPending rest s).responses = s.responses := rfl
@[simp] theorem withPending_draws (rest : List Event) (s : State) : (withPending rest s).draws = s.draws := rfl

end Sys2Proof.Machine
end

