-- ==== Sys2Proof/Laws/Ops.lean ====
section
/-! SUPPORT. One lemma per shared operation that says all it can do; later proofs cite these and do not unfold. -/

namespace Sys2Proof.Machine

/-- A retired command always answers a next state. -/
theorem retire_eq (code : ErrCode) (s : State) : retire code s = .next (retired code s) := rfl

/-- An offset of the window resolves to itself (20_memory.md R70). -/
theorem windowOffset_window {off : Nat} (h : off < 0x100) : windowOffset (Config.taesBase + off) = some off := by
  have : off < Config.windowSize := h
  simp [windowOffset, this]

/-- What a resolved address says (20_memory.md R70). -/
theorem windowOffset_eq_some {addr off : Nat} (h : windowOffset addr = some off) :
    addr = Config.taesBase + off ∧ off < 0x100 := by
  unfold windowOffset at h
  split at h
  · next hb =>
    injection h with h
    have : Config.windowSize = 0x100 := rfl
    omega
  · cases h

/-- The bus reads of 20_memory.md R74 and R76, both cases. -/
theorem busRead_cases (off : Nat) (s : State) :
    (s.busy = true ∧ (regAt off).unspecifiedWhileBusy = true ∧
      busRead off s = respond (.data ((drawnValue s).setWidth 32)) (countDraw s)) ∨
    (¬ (s.busy = true ∧ (regAt off).unspecifiedWhileBusy = true) ∧
      busRead off s = respond (.data (regValue (regAt off) s)) s) := by
  by_cases h : s.busy = true ∧ (regAt off).unspecifiedWhileBusy = true
  · exact .inl ⟨h.1, h.2, by simp [busRead, h]⟩
  · exact .inr ⟨h, if_neg h⟩

/-- The bus writes of 20_memory.md R73 and 10_state.md R36, both cases. -/
theorem busWrite_cases (off : Nat) (v : Word) (s : State) :
    (s.busy = true ∧ (regAt off).writeDroppedWhileBusy = true ∧
      busWrite off v s = respond .written (dropWrite s)) ∨
    (¬ (s.busy = true ∧ (regAt off).writeDroppedWhileBusy = true) ∧
      busWrite off v s = respond .written (writeReg (regAt off) v s)) := by
  by_cases h : s.busy = true ∧ (regAt off).writeDroppedWhileBusy = true
  · exact .inl ⟨h.1, h.2, by simp [busWrite, h]⟩
  · exact .inr ⟨h, by rw [busWrite, if_neg h]⟩

/-- Every way one host access can act (20_memory.md R70, R72-R76). -/
theorem busAccess_cases (a : Access) (s : State) :
    (windowOffset a.addr = none ∧ busAccess a s = s) ∨
    (∃ off, windowOffset a.addr = some off ∧ a.width = .w32 ∧ off % 4 = 0 ∧ a.kind = .read ∧
      busAccess a s = busRead off s) ∨
    (∃ off d, windowOffset a.addr = some off ∧ a.width = .w32 ∧ off % 4 = 0 ∧ a.kind = .write d ∧
      busAccess a s = busWrite off (d.setWidth 32) s) ∨
    (∃ off, windowOffset a.addr = some off ∧ ¬ (a.width = .w32 ∧ off % 4 = 0) ∧ busAccess a s = busError a s) := by
  cases hw : windowOffset a.addr with
  | none => exact .inl ⟨rfl, by simp [busAccess, hw]⟩
  | some off =>
    by_cases hg : a.width = .w32 ∧ off % 4 = 0
    · cases hk : a.kind with
      | read => exact .inr (.inl ⟨off, rfl, hg.1, hg.2, rfl, by simp [busAccess, hw, hg, hk]⟩)
      | write d => exact .inr (.inr (.inl ⟨off, d, rfl, hg.1, hg.2, rfl, by simp [busAccess, hw, hg, hk]⟩))
    · exact .inr (.inr (.inr ⟨off, rfl, hg, by simp only [busAccess, hw, if_neg hg]⟩))

/-- A 32-bit read in the window is a bus read. -/
theorem busAccess_read {off : Nat} (h : off < 0x100) (ha : off % 4 = 0) (s : State) :
    busAccess ⟨Config.taesBase + off, .w32, .read⟩ s = busRead off s := by
  simp [busAccess, windowOffset_window h, ha]

/-- A 32-bit write in the window is a bus write. -/
theorem busAccess_write {off : Nat} (h : off < 0x100) (ha : off % 4 = 0) (d : BitVec 64) (s : State) :
    busAccess ⟨Config.taesBase + off, .w32, .write d⟩ s = busWrite off (d.setWidth 32) s := by
  simp [busAccess, windowOffset_window h, ha]

/-- An access of another width or alignment in the window is a bus error (20_memory.md R72). -/
theorem busAccess_error {a : Access} {off : Nat} (h : off < 0x100) (ha : a.addr = Config.taesBase + off)
    (hb : ¬ (a.width = .w32 ∧ off % 4 = 0)) (s : State) : busAccess a s = busError a s := by
  simp only [busAccess, ha, windowOffset_window h, if_neg hb]

/-- A walk to the next phase changes SEQ only, and keeps the running word (10_state.md R44). -/
theorem advance_cases (s : State) :
    advance s = s ∨
    ∃ w ph next, s.seq = .run w ph ∧ phaseAfter ph (phases (decode w) s.keyed s.ksize.toNat) = some next ∧
      advance s = { s with seq := .run w next } := by
  unfold advance
  split
  · exact .inl rfl
  · next w ph hseq =>
    split
    · next next hn => exact .inr ⟨w, ph, next, hseq, hn, rfl⟩
    · exact .inl rfl

/-- The phase after another is one of the walk. -/
theorem mem_of_phaseAfter {ph next : Phase} {l : List Phase} (h : phaseAfter ph l = some next) : next ∈ l := by
  induction l with
  | nil => simp [phaseAfter] at h
  | cons a rest ih =>
    cases rest with
    | nil => simp [phaseAfter] at h
    | cons b rest =>
      simp only [phaseAfter] at h
      split at h
      · injection h with h
        simp [h]
      · exact List.mem_cons_of_mem _ (ih h)

/-- Every walk has a first phase, and it is one of the walk (10_state.md R44). -/
theorem firstPhase_mem (w : Word) (s : State) : firstPhase w s ∈ phases (decode w) s.keyed s.ksize.toNat := by
  have hne : phases (decode w) s.keyed s.ksize.toNat ≠ [] := by
    cases decode w <;> simp only [phases] <;> try simp
    · split
      · next h =>
        intro hnil
        simp [validKeySize] at h
        rcases h with (h | h) | h <;> subst h <;> simp [keyWordCount, roundCount, List.range'] at hnil
      · simp
    · split <;> simp
    · split <;> simp
  unfold firstPhase
  cases hp : phases (decode w) s.keyed s.ksize.toNat with
  | nil => exact absurd hp hne
  | cons a rest => simp

/-- A step with no event pending is the block's turn. -/
theorem step_nil {s : State} (h : s.pending = []) : step s = completeCommand s := by
  simp [step, h]

/-- The events still to come are already `rest`. -/
theorem withPending_self {s : State} {rest : List Event} (h : s.pending = rest) : withPending rest s = s := by
  subst h; rfl

/-- A step with an event pending is that event. -/
theorem step_cons {s : State} {e : Event} {rest : List Event} (h : s.pending = e :: rest) :
    step s = handle e (withPending rest s) := by
  simp [step, h]

/-- A completion while BUSY = 1 runs the command in CTRL (60_exceptions.md R276). -/
theorem completeCommand_busy {s : State} (h : s.busy = true) : completeCommand s = exec (decode s.ctrl) s := by
  simp [completeCommand, h]

/-- The block's turn while BUSY = 0 changes nothing (60_exceptions.md R287). -/
theorem completeCommand_idle {s : State} (h : s.busy = false) : completeCommand s = .next s := by
  simp [completeCommand, h]

/-- It is the block's turn, and `rest` is what comes after. -/
def BlockTurn (s : State) (rest : List Event) : Prop :=
  s.pending = .complete :: rest ∨ s.pending = [] ∧ rest = []

/-- A step at the block's turn. -/
theorem step_blockTurn {s : State} {rest : List Event} (h : BlockTurn s rest) :
    step s = completeCommand (withPending rest s) := by
  rcases h with h | ⟨h, rfl⟩
  · exact step_cons h
  · rw [step_nil h, withPending_self h]

/-- Every way a step can answer a next state: a host access, a walk of the sequencer, a completion, an idle turn, or a
reset. -/
theorem step_cases {s t : State} (h : step s = .next t) :
    (∃ a rest, s.pending = .access a :: rest ∧ t = busAccess a (withPending rest s)) ∨
    (∃ rest, s.pending = .advance :: rest ∧ t = advance (withPending rest s)) ∨
    (∃ rest, BlockTurn s rest ∧ s.busy = true ∧ exec (decode s.ctrl) (withPending rest s) = .next t) ∨
    (∃ rest, BlockTurn s rest ∧ s.busy = false ∧ t = withPending rest s) ∨
    (∃ rest, s.pending = .reset none :: rest ∧ t = resetBlock (withPending rest s)) := by
  have turn : ∀ rest, BlockTurn s rest →
      (s.busy = true ∧ exec (decode s.ctrl) (withPending rest s) = .next t) ∨
      (s.busy = false ∧ t = withPending rest s) := by
    intro rest ht
    rw [step_blockTurn ht] at h
    rcases Bool.eq_false_or_eq_true s.busy with hb | hb
    · rw [completeCommand_busy (s := withPending rest s) hb] at h
      exact .inl ⟨hb, h⟩
    · rw [completeCommand_idle (s := withPending rest s) hb] at h
      injection h with h
      exact .inr ⟨hb, h.symm⟩
  have byTurn : ∀ rest, BlockTurn s rest →
      (∃ rest, BlockTurn s rest ∧ s.busy = true ∧ exec (decode s.ctrl) (withPending rest s) = .next t) ∨
      (∃ rest, BlockTurn s rest ∧ s.busy = false ∧ t = withPending rest s) := by
    intro rest ht
    rcases turn rest ht with ⟨hb, he⟩ | ⟨hb, he⟩
    · exact .inl ⟨rest, ht, hb, he⟩
    · exact .inr ⟨rest, ht, hb, he⟩
  cases hp : s.pending with
  | nil =>
    rcases byTurn [] (.inr ⟨hp, rfl⟩) with h' | h'
    · exact .inr (.inr (.inl h'))
    · exact .inr (.inr (.inr (.inl h')))
  | cons e rest =>
    cases e with
    | access a =>
      rw [step_cons hp] at h
      injection h with h
      exact .inl ⟨a, rest, rfl, h.symm⟩
    | advance =>
      rw [step_cons hp] at h
      injection h with h
      exact .inr (.inl ⟨rest, rfl, h.symm⟩)
    | complete =>
      rcases byTurn rest (.inl hp) with h' | h'
      · exact .inr (.inr (.inl h'))
      · exact .inr (.inr (.inr (.inl h')))
    | reset c =>
      rw [step_cons hp] at h
      cases c with
      | none =>
        injection h with h
        exact .inr (.inr (.inr (.inr ⟨rest, rfl, h.symm⟩)))
      | some a => cases h

end Sys2Proof.Machine
end

