-- ==== Sys2Proof/Laws/Exec.lean ====
section
/-! SUPPORT. What all completions have in common, said once: every meaning ends in `retire`, and touches none of the cells
that belong to the bus or to the environment. -/

namespace Sys2Proof.Machine

/-- The cells that no command writes (10_state.md section 6, and the model's own fields). -/
def SameEnvironment (s u : State) : Prop :=
  u.ctrl = s.ctrl ∧ u.werr = s.werr ∧ u.pending = s.pending ∧ u.responses = s.responses ∧ u.draws = s.draws

/-- Every command retires: its effect is a state `u` that agrees with `s` on CTRL, WERR and the model's own fields
(60_exceptions.md R276). -/
theorem exec_retires (i : Instr) (s : State) :
    ∃ code u, exec i s = .next (retired code u) ∧ SameEnvironment s u := by
  cases i with
  | init ksz tz =>
    by_cases h : validKeySize ksz = true
    · exact ⟨.ok, loadContext ksz tz s, by simp only [exec, execInit, h, retire_eq, if_true], ⟨rfl, rfl, rfl, rfl, rfl⟩⟩
    · exact ⟨.invalidKeySize, clearContext s, by simp only [exec, execInit, if_neg h, retire_eq], ⟨rfl, rfl, rfl, rfl, rfl⟩⟩
  | encrypt =>
    by_cases h : s.keyed = true
    · exact ⟨.ok, { s with blk := taesEncrypt s.rk (contextRounds s) s.tweak s.blk }, if_pos h, ⟨rfl, rfl, rfl, rfl, rfl⟩⟩
    · exact ⟨.notKeyed, s, by simp only [exec, execEncrypt, if_neg h, retire_eq], ⟨rfl, rfl, rfl, rfl, rfl⟩⟩
  | decrypt =>
    by_cases h : s.keyed = true
    · exact ⟨.ok, { s with blk := taesDecrypt s.rk (contextRounds s) s.tweak s.blk }, if_pos h, ⟨rfl, rfl, rfl, rfl, rfl⟩⟩
    · exact ⟨.notKeyed, s, by simp only [exec, execDecrypt, if_neg h, retire_eq], ⟨rfl, rfl, rfl, rfl, rfl⟩⟩
  | addRk idx =>
    rcases Bool.eq_false_or_eq_true s.keyed with h | h
    · by_cases hi : contextRounds s < idx
      · exact ⟨.indexRange, s, by simp [exec, execAddRk, h, hi, retire_eq], ⟨rfl, rfl, rfl, rfl, rfl⟩⟩
      · refine ⟨.ok, { s with blk := addRoundKey s.blk (effRoundKey s.rk s.tweak (contextRounds s) idx) }, ?_, ⟨rfl, rfl, rfl, rfl, rfl⟩⟩
        simp [exec, execAddRk, h, hi, retire_eq]
    · exact ⟨.notKeyed, s, by simp [exec, execAddRk, h, retire_eq], ⟨rfl, rfl, rfl, rfl, rfl⟩⟩
  | reserved67 odd => exact ⟨.illegalCmd, s, rfl, ⟨rfl, rfl, rfl, rfl, rfl⟩⟩
  | nop => exact ⟨.ok, s, rfl, ⟨rfl, rfl, rfl, rfl, rfl⟩⟩
  | cleanup => exact ⟨.ok, { clearContext s with blk := zeroBytes 16 }, rfl, ⟨rfl, rfl, rfl, rfl, rfl⟩⟩
  | tweakInc => exact ⟨.ok, { s with tweak := incrementTweak s.tweak }, rfl, ⟨rfl, rfl, rfl, rfl, rfl⟩⟩
  | subBytes => exact ⟨.ok, { s with blk := subBytes s.blk }, rfl, ⟨rfl, rfl, rfl, rfl, rfl⟩⟩
  | invSubBytes => exact ⟨.ok, { s with blk := invSubBytes s.blk }, rfl, ⟨rfl, rfl, rfl, rfl, rfl⟩⟩
  | shiftRows => exact ⟨.ok, { s with blk := shiftRows s.blk }, rfl, ⟨rfl, rfl, rfl, rfl, rfl⟩⟩
  | invShiftRows => exact ⟨.ok, { s with blk := invShiftRows s.blk }, rfl, ⟨rfl, rfl, rfl, rfl, rfl⟩⟩
  | mixColumns => exact ⟨.ok, { s with blk := mixColumns s.blk }, rfl, ⟨rfl, rfl, rfl, rfl, rfl⟩⟩
  | invMixColumns => exact ⟨.ok, { s with blk := invMixColumns s.blk }, rfl, ⟨rfl, rfl, rfl, rfl, rfl⟩⟩
  | gfMul gfc => exact ⟨.ok, { s with blk := gmulBlock s.blk gfc }, rfl, ⟨rfl, rfl, rfl, rfl, rfl⟩⟩

/-- A legal INIT, in the sizes of 00_scope.md R6. -/
theorem validKeySize_iff (ksz : Nat) : validKeySize ksz = true ↔ ksz = 16 ∨ ksz = 24 ∨ ksz = 32 := by
  simp [validKeySize, or_assoc]

/-- A completion at the block's turn answers a next state with BUSY = 0 and SEQ idle (60_exceptions.md R276). -/
theorem completeCommand_frees {s : State} (h : s.busy = true) :
    ∃ code u, completeCommand s = .next (retired code u) ∧ SameEnvironment s u := by
  rw [completeCommand_busy h]
  exact exec_retires _ _

end Sys2Proof.Machine
end

