-- ==== Sys2Proof/Laws/Gf.lean ====
section
/-! SUPPORT. Linearity of the GF(2^8) unit: the facts the block-wide laws rest on (40_gf_arith.md R120-R122). -/

namespace Sys2Proof.Machine

/-- Doubling as a shift and a conditional reduction (40_gf_arith.md R121). -/
theorem xtime_eq (a : Byte) : xtime a = (a <<< 1) ^^^ (if a.getLsbD 7 then 0x1B#8 else 0#8) := by
  unfold xtime
  cases a.getLsbD 7 <;> simp

/-- Doubling distributes over field addition (40_gf_arith.md R120, R121). -/
theorem xtime_xor (a b : Byte) : xtime (a ^^^ b) = xtime a ^^^ xtime b := by
  rw [xtime_eq, xtime_eq, xtime_eq, BitVec.shiftLeft_xor_distrib, BitVec.getLsbD_xor]
  generalize a <<< 1 = x
  generalize b <<< 1 = y
  have both : (x ^^^ 27#8) ^^^ (y ^^^ 27#8) = x ^^^ y := by
    rw [show (x ^^^ 27#8) ^^^ (y ^^^ 27#8) = (x ^^^ y) ^^^ (27#8 ^^^ 27#8) by ac_rfl]
    simp
  cases a.getLsbD 7 <;> cases b.getLsbD 7 <;> simp only [Bool.xor_false, Bool.xor_true, Bool.not_true,
    Bool.not_false, if_true, if_false, Bool.false_eq_true, BitVec.xor_zero, both] <;> ac_rfl

/-- The shift-and-add loop is linear in its accumulator and its multiplicand together (40_gf_arith.md R122). -/
theorem gmulFrom_xor (b : Byte) (n i : Nat) (r r' p p' : Byte) :
    gmulFrom b n i (r ^^^ r') (p ^^^ p') = gmulFrom b n i r p ^^^ gmulFrom b n i r' p' := by
  induction n generalizing i r r' p p' with
  | zero => rfl
  | succ n ih =>
    simp only [gmulFrom, xtime_xor]
    split
    · rw [show r ^^^ r' ^^^ (p ^^^ p') = (r ^^^ p) ^^^ (r' ^^^ p') by ac_rfl, ih]
    · rw [ih]

/-- Multiplication distributes over field addition on the left (40_gf_arith.md R122). -/
theorem gmul_xor_left (a a' b : Byte) : gmul (a ^^^ a') b = gmul a b ^^^ gmul a' b := by
  have := gmulFrom_xor b 8 0 0 0 a a'
  simpa [gmul] using this

/-- The element of a transformed column is linear in the column (42_round_primitives.md R167). -/
theorem circulant_xor (m0 m1 m2 m3 : Byte) (x y : Nat → Byte) (r : Nat) :
    circulant m0 m1 m2 m3 (fun k => x k ^^^ y k) r
      = circulant m0 m1 m2 m3 x r ^^^ circulant m0 m1 m2 m3 y r := by
  simp only [circulant, gmul_xor_left]
  ac_rfl

end Sys2Proof.Machine
end

