-- ==== Sys2Proof/Laws/HostOps.lean ====
section
/-! SUPPORT. What the host's `WR` and `RD` do at a valid offset of the window (30_encoding.md R108). -/

namespace Sys2Proof.Machine

/-- `WR` at a valid offset is a bus write. -/
theorem hostWrite_window {off : Nat} (h : off < 0x100) (ha : off % 4 = 0) (v : Word) (s : State) :
    hostWrite off v s = busWrite off v s := by
  rw [hostWrite, wrAccess, busAccess_write h ha]
  simp

/-- `RD` at a valid offset while BUSY = 0 binds the register's value and only logs the answer. -/
theorem hostRead_idle {off : Nat} (h : off < 0x100) (ha : off % 4 = 0) {s : State} (hb : s.busy = false) :
    hostRead off s = (regValue (regAt off) s, respond (.data (regValue (regAt off) s)) s) := by
  have hw : off < Config.windowSize := h
  rcases busRead_cases off s with ⟨hb', _, _⟩ | ⟨_, hr⟩
  · simp [hb] at hb'
  · rw [hostRead, if_pos hw, rdAccess, busAccess_read h ha, hr]
    rfl

/-- `RD` past the end of the window binds a free value and counts it (notes/assumptions/15.md). -/
theorem hostRead_outside {off : Nat} (h : 0x100 ≤ off) (s : State) :
    hostRead off s = ((drawnValue s).setWidth 32, countDraw s) :=
  if_neg (Nat.not_lt.mpr h)

end Sys2Proof.Machine
end

