-- ==== Sys2Proof/Laws/PerInstr.lean ====
section
/-! SUPPORT. Statements about every command as syntax, one lemma per constructor. -/

namespace Sys2Proof.Laws

/-- The encoded word of a command carries its opcode in CMD (30_encoding.md R105, R106) and zero in the reserved bits
(R104). -/
def OpcodeField.Statement (i : Instr) : Prop :=
  fieldCmd (encode i) = opcode i ∧ (encode i).extractLsb' 17 7 = 0

theorem OpcodeField.nop : OpcodeField.Statement .nop :=
  ⟨fieldCmd_assemble .., reserved_assemble ..⟩
theorem OpcodeField.init (ksz : Nat) (tz : Bool) : OpcodeField.Statement (.init ksz tz) :=
  ⟨fieldCmd_assemble .., reserved_assemble ..⟩
theorem OpcodeField.encrypt : OpcodeField.Statement .encrypt :=
  ⟨fieldCmd_assemble .., reserved_assemble ..⟩
theorem OpcodeField.decrypt : OpcodeField.Statement .decrypt :=
  ⟨fieldCmd_assemble .., reserved_assemble ..⟩
theorem OpcodeField.cleanup : OpcodeField.Statement .cleanup :=
  ⟨fieldCmd_assemble .., reserved_assemble ..⟩
theorem OpcodeField.tweakInc : OpcodeField.Statement .tweakInc :=
  ⟨fieldCmd_assemble .., reserved_assemble ..⟩
theorem OpcodeField.subBytes : OpcodeField.Statement .subBytes :=
  ⟨fieldCmd_assemble .., reserved_assemble ..⟩
theorem OpcodeField.invSubBytes : OpcodeField.Statement .invSubBytes :=
  ⟨fieldCmd_assemble .., reserved_assemble ..⟩
theorem OpcodeField.shiftRows : OpcodeField.Statement .shiftRows :=
  ⟨fieldCmd_assemble .., reserved_assemble ..⟩
theorem OpcodeField.invShiftRows : OpcodeField.Statement .invShiftRows :=
  ⟨fieldCmd_assemble .., reserved_assemble ..⟩
theorem OpcodeField.mixColumns : OpcodeField.Statement .mixColumns :=
  ⟨fieldCmd_assemble .., reserved_assemble ..⟩
theorem OpcodeField.invMixColumns : OpcodeField.Statement .invMixColumns :=
  ⟨fieldCmd_assemble .., reserved_assemble ..⟩
theorem OpcodeField.addRk (idx : Nat) : OpcodeField.Statement (.addRk idx) :=
  ⟨fieldCmd_assemble .., reserved_assemble ..⟩
theorem OpcodeField.gfMul (gfc : Byte) : OpcodeField.Statement (.gfMul gfc) :=
  ⟨fieldCmd_assemble .., reserved_assemble ..⟩
theorem OpcodeField.reserved67 (odd : Bool) : OpcodeField.Statement (.reserved67 odd) :=
  ⟨fieldCmd_assemble .., reserved_assemble ..⟩

end Sys2Proof.Laws
end

