-- ==== Sys2Proof/Tests/Slice0.lean ====
section
/-! SUPPORT. Tests against the vectors of 95_test_vectors.md and the worked encodings of 30_encoding.md R109, and for every
statement with hypotheses a witness that meets them. -/

namespace Sys2Proof.Machine.Tests

/-! ## Helpers -/

/-- The block with the bytes of a hex string, byte 0 first. -/
def hex (v : BitVec 128) : Block := Vector.ofFn fun i => v.extractLsb' (8 * (15 - i.val)) 8

/-- The key buffer with the bytes of a hex string, byte 0 first. -/
def hexKey (v : BitVec 256) : KeyBuffer := Vector.ofFn fun i => v.extractLsb' (8 * (31 - i.val)) 8

/-- The first 16 example key bytes, then zeros (`K16` of 95_test_vectors.md). -/
def k16 : KeyBuffer := hexKey 0x000102030405060708090a0b0c0d0e0f00000000000000000000000000000000

/-- One field of the next state an outcome gives. -/
def after {α : Type} (r : Result) (f : State → α) : Option α :=
  match r with
  | .next s => some (f s)
  | .fault _ => none
  | .refused _ => none

/-- A state with the block `b` and nothing else set. -/
def holding (b : Block) : State := { State.reset with blk := b }

/-- A context of K16 with tweak `t` and block `b`. -/
def context16 (t b : Block) : State :=
  { State.reset with keyed := true, ksize := 16, rk := expandKey k16 16, tweak := t, blk := b }

/-- A context of the given size over zero round keys. -/
def keyedZero (ksize : BitVec 6) : State := { State.reset with keyed := true, ksize := ksize }

/-- An idle or busy block with the events `es` to come. -/
def waiting (busy : Bool) (es : List Event) : State := { State.reset with busy := busy, pending := es }

/-- A block that has accepted the word `w`, with the events `es` to come. -/
def running (w : Word) (es : List Event) : State := withPending es (accept w State.reset)

/-! ## Well-formedness: the terms the check refuses (30_encoding.md R101, R102) -/

theorem test_init_size_does_not_fit : (Instr.init 256 false).wellFormed = false := by decide
theorem test_addrk_index_does_not_fit : (Instr.addRk 16).wellFormed = false := by decide
theorem test_illegal_size_has_an_encoding : (Instr.init 20 false).wellFormed = true := by decide

/-! ## Decoding: words written out by the layout of 30_encoding.md R101 with the opcodes of R105, R106 -/

theorem test_decode_nop : decode 0b0000_0000_0000_0000_0000_0000_0000_0000#32 = .nop := by decide
theorem test_decode_init : decode 0b0000_0000_0000_0001_0001_1000_0000_0001#32 = .init 24 true := by decide
theorem test_decode_init_ignores : decode 0b1010_0101_1111_1110_0010_0000_1111_0001#32 = .init 32 false := by decide
theorem test_decode_encrypt : decode 0b0000_0000_0000_0000_0000_0000_0000_0010#32 = .encrypt := by decide
theorem test_decode_decrypt : decode 0b0000_0000_0000_0000_0000_0000_0000_0011#32 = .decrypt := by decide
theorem test_decode_cleanup : decode 0b0000_0000_0000_0000_0000_0000_0000_0100#32 = .cleanup := by decide
theorem test_decode_tweak_inc : decode 0b0000_0000_0000_0000_0000_0000_0000_0101#32 = .tweakInc := by decide
theorem test_decode_reserved6 : decode 0b0000_0000_0000_0000_0000_0000_0000_0110#32 = .reserved67 false := by decide
theorem test_decode_reserved7 : decode 0b1111_1111_1111_1111_1111_1111_1111_0111#32 = .reserved67 true := by decide
theorem test_decode_subbytes : decode 0b0000_0000_0000_0000_0000_0000_0000_1000#32 = .subBytes := by decide
theorem test_decode_invsubbytes : decode 0b0000_0000_0000_0000_0000_0000_0000_1001#32 = .invSubBytes := by decide
theorem test_decode_shiftrows : decode 0b0000_0000_0000_0000_0000_0000_0000_1010#32 = .shiftRows := by decide
theorem test_decode_invshiftrows : decode 0b0000_0000_0000_0000_0000_0000_0000_1011#32 = .invShiftRows := by decide
theorem test_decode_mixcolumns : decode 0b0000_0000_0000_0000_0000_0000_0000_1100#32 = .mixColumns := by decide
theorem test_decode_invmixcolumns : decode 0b0000_0000_0000_0000_0000_0000_0000_1101#32 = .invMixColumns := by decide
theorem test_decode_addrk : decode 0b0000_0000_0000_0000_0000_0000_1010_1110#32 = .addRk 10 := by decide
theorem test_decode_gfmul : decode 0b1000_0011_0000_0000_0000_0000_0000_1111#32 = .gfMul 0x83 := by decide
theorem test_decode_too_long : decodeTableWord 64 0x2 = none := by decide

/-! ## The commands, one step each (95_test_vectors.md) -/

/-- V61: NOP clears ERR. -/
theorem test_nop : after (exec .nop { State.reset with err := 2 }) (·.err) = some 0 := by decide

/-- V10, V16: INIT of K16 keeps the tweak, clears KEY, and expands `RK[10]`. -/
theorem test_init :
    after (exec (.init 16 false) { State.reset with key := k16, tweak := hex 1 })
      (fun s => statusWord s == 0x2 && infoWord s == 0x00045A10 && s.tweak == hex 1 && s.key == zeroBytes 32 &&
        roundKeyAt s.rk 10 == hex 0x13111d7fe3944a17f307a78b4d2b30c5 && roundKeyAt s.rk 11 == zeroBytes 16)
    = some true := by decide +kernel

/-- V71: an illegal size destroys the context and keeps BLK. -/
theorem test_init_illegal :
    after (exec (.init 20 false) (context16 (hex 1) (hex 2)))
      (fun s => statusWord s == 0x10 && infoWord s == 0 && s.tweak == zeroBytes 16 && s.blk == hex 2 &&
        s.rk == zeroRoundKeys) = some true := by decide +kernel

/-- V20: ENCRYPT with K16 and the tweak `01 00..00`. -/
theorem test_encrypt :
    after (exec .encrypt (context16 (hex 0x01000000000000000000000000000000) (hex 0x00112233445566778899aabbccddeeff)))
      (fun s => (statusWord s, s.blk)) = some (0x2, hex 0xd34b2732974b436c5bee6dc3b1274686) := by decide +kernel

/-- V72: ENCRYPT without a context. -/
theorem test_encrypt_not_keyed :
    after (exec .encrypt (holding (hex 5))) (fun s => (statusWord s, s.blk)) = some (0x20, hex 5) := by decide

/-- V33: DECRYPT of the zero block with K16 and the tweak `01 00..00`. -/
theorem test_decrypt :
    after (exec .decrypt (context16 (hex 0x01000000000000000000000000000000) (hex 0)))
      (fun s => (statusWord s, s.blk)) = some (0x2, hex 0xbadd665c9719969e640f605eeea7574d) := by decide +kernel

/-- V73: DECRYPT without a context. -/
theorem test_decrypt_not_keyed : after (exec .decrypt State.reset) statusWord = some 0x20 := by decide

/-- V91: CLEANUP zeroes the context and BLK and keeps CTRL. -/
theorem test_cleanup :
    after (exec .cleanup { context16 (hex 1) (hex 2) with ctrl := 4 })
      (fun s => statusWord s == 0 && infoWord s == 0 && s.tweak == zeroBytes 16 && s.blk == zeroBytes 16 &&
        s.rk == zeroRoundKeys && s.ctrl == 4) = some true := by decide +kernel

/-- V60: the carry chain of TWEAK_INC. -/
theorem test_tweak_inc_carry :
    after (exec .tweakInc { State.reset with tweak := hex 0xffffffffffffffffffffffffffffff00 }) (·.tweak)
    = some (hex 0x00000000000000000000000000000001) := by decide +kernel

/-- V60: the full wrap of TWEAK_INC. -/
theorem test_tweak_inc_wrap :
    after (exec .tweakInc { State.reset with tweak := hex 0xffffffffffffffffffffffffffffffff }) (fun s => (s.tweak, s.err))
    = some (hex 0, 0) := by decide +kernel

/-- V40. -/
theorem test_subbytes : after (exec .subBytes (holding (hex 0x8e4da1bc9fdc589d01010101c6c6c6c6))) (·.blk)
    = some (hex 0x19e33265db866a5e7c7c7c7cb4b4b4b4) := by decide +kernel

/-- V41. -/
theorem test_invsubbytes : after (exec .invSubBytes (holding (hex 0xdb135345f20a225c01010101c6c6c6c6))) (·.blk)
    = some (hex 0x9f82506804a394a709090909c7c7c7c7) := by decide +kernel

/-- V42. -/
theorem test_shiftrows : after (exec .shiftRows (holding (hex 0x000102030405060708090a0b0c0d0e0f))) (·.blk)
    = some (hex 0x00050a0f04090e03080d02070c01060b) := by decide +kernel

/-- V43. -/
theorem test_invshiftrows : after (exec .invShiftRows (holding (hex 0x000102030405060708090a0b0c0d0e0f))) (·.blk)
    = some (hex 0x000d0a0704010e0b0805020f0c090603) := by decide +kernel

/-- V44. -/
theorem test_mixcolumns : after (exec .mixColumns (holding (hex 0xdb135345f20a225c01010101c6c6c6c6))) (·.blk)
    = some (hex 0x8e4da1bc9fdc589d01010101c6c6c6c6) := by decide +kernel

/-- V45. -/
theorem test_invmixcolumns : after (exec .invMixColumns (holding (hex 0xdb135345f20a225c01010101c6c6c6c6))) (·.blk)
    = some (hex 0x32a41d55aec3698201010101c6c6c6c6) := by decide +kernel

/-- V46: the tweak enters at index 5. -/
theorem test_addrk :
    after (exec (.addRk 5) (context16 (hex 0x01000000000000000000000000000000) (hex 0))) (fun s => (s.blk, s.err))
    = some (hex 0x3daaa3e8a99f9deb50f3af57adf622aa, 0) := by decide +kernel

/-- V74, V75: no context comes before the index range. -/
theorem test_addrk_errors :
    after (exec (.addRk 15) State.reset) (·.err) = some 2 ∧
    after (exec (.addRk 11) (keyedZero 16)) (·.err) = some 4 := by decide

/-- V53. -/
theorem test_gfmul : after (exec (.gfMul 0x83) (holding (hex 0x57575757575757575757575757575757))) (·.blk)
    = some (hex 0xc1c1c1c1c1c1c1c1c1c1c1c1c1c1c1c1) := by decide +kernel

/-- V53. -/
theorem test_gfmul_three : after (exec (.gfMul 0x03) (holding (hex 0x000102030405060708090a0b0c0d0e0f))) (·.blk)
    = some (hex 0x000306050c0f0a09181b1e1d14171211) := by decide +kernel

/-- V76, V77. -/
theorem test_reserved :
    after (exec (.reserved67 false) (keyedZero 16)) statusWord = some 0x32 ∧
    after (exec (.reserved67 true) (keyedZero 16)) statusWord = some 0x32 := by decide

/-! ## The schedule, the pipeline and the mode -/

/-- V15: the branch of the 32-byte key at word 12. -/
theorem test_schedule_long_key : scheduleTemp 8 12 0xa572c09c#32 = 0x0640bade#32 ∧
    scheduleTemp 6 10 0x5847f0fa#32 = 0x5847f0fa#32 := by decide +kernel

/-- V3: the known answer of a 32-byte key, `RK[14]` included (V12). -/
theorem test_known_answer_256 :
    let rk := expandKey (hexKey 0x000102030405060708090a0b0c0d0e0f101112131415161718191a1b1c1d1e1f) 32
    (roundKeyAt rk 14, taesEncrypt rk 14 (hex 0) (hex 0x00112233445566778899aabbccddeeff))
    = (hex 0x24fc79ccbf0979e9371ac23c6d68de36, hex 0x8ea2b7ca516745bfeafc49904b496089) := by decide +kernel

/-- V2: the known answer of a 24-byte key. -/
theorem test_known_answer_192 :
    taesEncrypt (expandKey (hexKey 0x000102030405060708090a0b0c0d0e0f10111213141516170000000000000000) 24) 12 (hex 0)
      (hex 0x00112233445566778899aabbccddeeff) = hex 0xdda97ca4864cdfe06eaf70a0ec0d7191 := by decide +kernel

/-- V80: 17 sequential bytes. -/
theorem test_mode_stealing :
    (match modeEncrypt (expandKey k16 16) 10 ((List.range 17).map (BitVec.ofNat 8)) (hex 0) with
      | .ok (ct, t) => ct == (hex 0x8e8ff122357281694bc166bf46a7f59c).toList ++ [0x0a] &&
          t == hex 0x02000000000000000000000000000000
      | .error _ => false) = true := by decide +kernel

/-! ## The bus and the step -/

/-- V79: a BLK1 write while BUSY = 1 is dropped and sets WERR. -/
theorem test_write_while_busy :
    let t := busWrite 0x54 0xFFFFFFFF#32 (running 0x2 [])
    statusWord t = 0x5 ∧ t.blk = zeroBytes 16 ∧ t.responses = [.written] := by decide

/-- 20_memory.md R75: a BLK write lands in its lanes, and a KEY read is 0 (10_state.md R40). -/
theorem test_lanes :
    (busWrite 0x54 0x44332211#32 State.reset).blk = hex 0x00000000112233440000000000000000 ∧
    regValue (regAt 0x20) { State.reset with key := k16 } = 0 ∧
    regValue (regAt 0x58) (holding (hex 0x000102030405060708090a0b0c0d0e0f)) = 0x0b0a0908#32 := by decide +kernel

/-- 20_memory.md R72: the host's word of a misaligned read is the unspecified data of the bus error, whatever it is. -/
theorem test_host_read_of_bus_error :
    (hostRead 0x41 State.reset).1 = (Config.freeValue 0).setWidth 32 := by
  have h : busAccess (rdAccess 0x41) State.reset = busError (rdAccess 0x41) State.reset :=
    busAccess_error (off := 0x41) (by decide) rfl (by decide) State.reset
  show lastData (busAccess (rdAccess 0x41) State.reset) = _
  rw [h]
  show ((((Config.freeValue 0).setWidth 32).setWidth 64).setWidth 32) = _
  simp

/-- V92. -/
theorem test_reset_reads :
    regValue (regAt 0x00) State.reset = 0x54414553#32 ∧ regValue (regAt 0x04) State.reset = 0 ∧
    regValue (regAt 0x08) State.reset = 0 ∧ regValue (regAt 0x0C) State.reset = 0 := by decide

/-- 60_exceptions.md R276: the first step after reset runs the placed command (ADDRK without a context; GFMUL). -/
theorem test_step_runs_word :
    after (step (State.reset.withFetchWord 32 0x0000000E)) statusWord = some 0x20 ∧
    after (step (State.reset.withFetchWord 32 0xFF00000F)) statusWord = some 0 := by decide

/-- The command word in CTRL, and what is decoded from the table's row, agree (30_encoding.md R109). -/
theorem test_table_word : decodeTableWord 32 0x0000005E = some (.addRk 5) := by decide

/-! ## Witnesses: a concrete state and operands for the hypotheses of each statement that has some -/

/-- An outcome that is a next state. -/
def goesOn (s : State) : Prop := ∃ t, step s = .next t

/-- A 32-bit write in the window, as a step. -/
theorem step_write {s : State} {off : Nat} {d : BitVec 64} {rest : List Event} (h : off < 0x100) (ha : off % 4 = 0)
    (hp : s.pending = writeEvent off d :: rest) :
    step s = .next (busWrite off (d.setWidth 32) (withPending rest s)) := by
  rw [step_cons hp]
  exact congrArg Host.Outcome.next (busAccess_write h ha d _)

theorem witness_DecodeInvertsEncode :
    (Instr.init 255 true).wellFormed = true ∧ (Instr.addRk 15).wellFormed = true ∧ Instr.nop.wellFormed = true := by
  decide

theorem witness_DecodeFollowsOpcodeMap : ∀ c : BitVec 4,
    (0xFFFFFFF0#32 ||| c.setWidth 32) &&& 0xF#32 = c.setWidth 32 ∧ c.setWidth 32 &&& 0xF#32 = c.setWidth 32 := by
  decide

theorem witness_UnusedFieldsAreIgnoredAndKept_decode :
    (0x00001001#32 &&& 0xF#32 = 0xFFFE10F1#32 &&& 0xF#32 ∧
      0x00001001#32 &&& 0x0001FF00#32 = 0xFFFE10F1#32 &&& 0x0001FF00#32) ∧
    (0x0000005E#32 &&& 0xF#32 = 0xFFFFFF5E#32 &&& 0xF#32 ∧ 0x0000005E#32 &&& 0xF0#32 = 0xFFFFFF5E#32 &&& 0xF0#32) ∧
    (0x8300000F#32 &&& 0xF#32 = 0x83FFFFFF#32 &&& 0xF#32 ∧
      0x8300000F#32 &&& 0xFF000000#32 = 0x83FFFFFF#32 &&& 0xFF000000#32) := by decide

theorem witness_UnusedFieldsAreIgnoredAndKept_ctrl :
    (waiting false [writeEvent 0x04 0xFFFEFFF2, readEvent 0x04]).busy = false ∧
    (waiting false [writeEvent 0x04 0xFFFEFFF2, readEvent 0x04]).pending
      = writeEvent 0x04 0xFFFEFFF2 :: readEvent 0x04 :: [] := ⟨rfl, rfl⟩

theorem witness_ResetEventClearsEverything : (running 0x2 [.reset none]).pending = .reset none :: [] := rfl

theorem witness_StepRunsDecodedCommand :
    ((running 0x5E []).busy = true ∧ decode (running 0x5E []).ctrl = .addRk 5 ∧ (running 0x5E []).pending = []) ∧
    ((running 0x5E [.complete]).busy = true ∧ (running 0x5E [.complete]).pending = .complete :: []) := by decide

theorem witness_AcceptanceAndCompletion :
    ((waiting false [writeEvent 0x04 0x2]).pending = writeEvent 0x04 0x2 :: [] ∧
      (waiting false [writeEvent 0x04 0x2]).busy = false) ∧
    (running 0x2 [.complete]).pending = .complete :: [] ∧ (running 0x2 [.complete]).busy = true :=
  ⟨⟨rfl, rfl⟩, rfl, rfl⟩

theorem witness_FailedCommandHasNoOutput :
    (∃ t, exec .encrypt State.reset = .next t ∧ t.err ≠ 0 ∧ ∀ ksz tz, Instr.encrypt ≠ .init ksz tz) ∧
    (∃ t, exec (.addRk 11) (keyedZero 16) = .next t ∧ t.err ≠ 0) ∧
    (∃ t, exec (.reserved67 true) (keyedZero 16) = .next t ∧ t.err ≠ 0) ∧
    (∃ t, exec (.init 20 true) (keyedZero 16) = .next t ∧ t.err ≠ 0) :=
  ⟨⟨_, rfl, by decide, by intro _ _ h; cases h⟩, ⟨_, rfl, by decide⟩, ⟨_, rfl, by decide⟩, ⟨_, rfl, by decide⟩⟩

theorem witness_CommandsWriteOnlyTheirCells :
    (∃ t, exec (.init 20 false) { State.reset with key := hexKey 1, tweak := hex 1 } = .next t ∧
      t.key ≠ hexKey 1 ∧ t.tweak ≠ hex 1 ∧ t.err = 1) ∧
    (∃ t, exec .tweakInc State.reset = .next t ∧ t.tweak ≠ State.reset.tweak) ∧
    (∃ t, exec .subBytes State.reset = .next t ∧ t.blk ≠ State.reset.blk) ∧
    (∃ t, exec .cleanup (keyedZero 32) = .next t ∧ t.ksize ≠ (keyedZero 32).ksize ∧ t.keyed ≠ (keyedZero 32).keyed) :=
  ⟨⟨_, rfl, by decide +kernel⟩, ⟨_, rfl, by decide +kernel⟩, ⟨_, rfl, by decide +kernel⟩, ⟨_, rfl, by decide⟩⟩

theorem witness_StatusLayoutAndWrite :
    (running 0x2 [readEvent 0x08]).pending = readEvent 0x08 :: [] ∧
    (waiting true [writeEvent 0x08 0x4]).pending = writeEvent 0x08 0x4 :: [] ∧
    (waiting false [writeEvent 0x08 0xFB]).pending = writeEvent 0x08 0xFB :: [] := ⟨rfl, rfl, rfl⟩

/-- Every offset whose write is dropped, at the ends of its range. -/
theorem witness_WriteWhileBusyIsDropped_drop : ∀ off ∈ [0x04, 0x20, 0x3C, 0x40, 0x4C, 0x50, 0x5C],
    off % 4 = 0 ∧ (off = 0x04 ∨ (0x20 ≤ off ∧ off < 0x60)) ∧
    (waiting true [writeEvent off 0xA5]).pending = writeEvent off 0xA5 :: [] ∧
    (waiting true [writeEvent off 0xA5]).busy = true := by
  intro off h
  refine ⟨?_, ?_, rfl, rfl⟩ <;> (revert off; decide)

theorem witness_WriteWhileBusyIsDropped_set :
    ∃ s t, step s = .next t ∧ s.werr = false ∧ t.werr = true :=
  ⟨waiting true [writeEvent 0x5C 0], _, step_write (by decide) (by decide) rfl, by decide, by decide⟩

theorem witness_WriteWhileBusyIsDropped_clear :
    (∃ s t, step s = .next t ∧ s.werr = true ∧ t.werr = false ∧ s.pending = [writeEvent 0x08 0x4]) ∧
    (∃ s t, step s = .next t ∧ s.werr = true ∧ t.werr = false ∧ s.pending = [.reset none]) :=
  ⟨⟨{ State.reset with werr := true, pending := [writeEvent 0x08 0x4] }, _,
      step_write (by decide) (by decide) rfl, rfl, by decide, rfl⟩,
    ⟨{ State.reset with werr := true, pending := [.reset none] }, _, rfl, rfl, rfl, rfl⟩⟩

theorem witness_ErrChangesOnlyWithACommand :
    (∃ s t, step s = .next t ∧ t.err ≠ s.err ∧ s.busy = false ∧ s.pending = [writeEvent 0x04 0x2]) ∧
    (∃ s t, step s = .next t ∧ t.err ≠ s.err ∧ s.pending = [.complete]) ∧
    (∃ s t, step s = .next t ∧ t.err ≠ s.err ∧ s.pending = [.reset none]) ∧
    (∃ t, exec (.addRk 15) (keyedZero 16) = .next t ∧ t.err = 4) :=
  ⟨⟨{ State.reset with err := 4, pending := [writeEvent 0x04 0x2] }, _,
      step_write (by decide) (by decide) rfl, by decide, rfl, rfl⟩,
    ⟨running 0x2 [.complete], _, rfl, by decide, rfl⟩,
    ⟨{ State.reset with err := 4, pending := [.reset none] }, _, rfl, by decide, rfl⟩,
    ⟨_, rfl, by decide⟩⟩

/-- The ends of every range of the register map, idle and busy. -/
theorem witness_RegisterWrites : ∀ busy,
    ∀ off ∈ [0x00, 0x04, 0x08, 0x0C, 0x1C, 0x20, 0x3C, 0x40, 0x4C, 0x50, 0x5C, 0x60, 0xFC],
    off < 0x100 ∧ off % 4 = 0 ∧ (waiting busy [writeEvent off 0xA5]).busy = busy ∧
    (waiting busy [writeEvent off 0xA5]).pending = writeEvent off 0xA5 :: [] := by
  intro busy off h
  refine ⟨?_, ?_, rfl, rfl⟩ <;> (revert off; decide)

/-- The ends of every range of the register map; TWEAK and BLK idle only. -/
theorem witness_RegisterReads : ∀ busy,
    ∀ off ∈ [0x00, 0x04, 0x08, 0x0C, 0x10, 0x20, 0x3C, 0x40, 0x4C, 0x50, 0x5C, 0x60, 0xFC],
    (busy = true → off < 0x40 ∨ 0x60 ≤ off) →
    off < 0x100 ∧ off % 4 = 0 ∧ ¬ ((waiting busy [readEvent off]).busy = true ∧ 0x40 ≤ off ∧ off < 0x60) ∧
    (waiting busy [readEvent off]).pending = readEvent off :: [] := by
  intro busy off h hb
  refine ⟨?_, ?_, ?_, rfl⟩
  · clear hb; revert off; decide
  · clear hb; revert off; decide
  · intro ⟨h1, h2, h3⟩
    have := hb h1
    omega

theorem witness_RegisterReads_info : ∀ ksize ∈ [(16 : BitVec 6), 24, 32],
    { keyedZero ksize with pending := [readEvent 0x0C] }.pending = readEvent 0x0C :: [] ∧
    (keyedZero ksize).keyed = true ∧ (keyedZero ksize).busy = false ∧ State.reset.keyed = false :=
  fun _ _ => ⟨rfl, rfl, rfl, rfl⟩

theorem witness_BusyReadsAreFreeDraws :
    (∀ off ∈ [0x40, 0x4C, 0x50, 0x5C], off % 4 = 0 ∧ 0x40 ≤ off ∧ off < 0x60) ∧
    (∀ off ∈ [0x00, 0x3C, 0x60, 0xFC], off < 0x100 ∧ off % 4 = 0 ∧ (off < 0x40 ∨ 0x60 ≤ off)) ∧
    (∀ off, (waiting true [readEvent off]).busy = true ∧ (waiting true [readEvent off]).pending = readEvent off :: []) :=
  ⟨by decide, by decide, fun _ => ⟨rfl, rfl⟩⟩

/-- Each wrong width, and a misaligned 32-bit access, at the first and the last offsets that can be. -/
theorem witness_BusErrorChangesNothing :
    (∀ x ∈ [(Width.w8, 0x00), (.w16, 0xFE), (.w64, 0x04), (.w32, 0x01), (.w32, 0xFF)],
      x.2 < 0x100 ∧ (x.1 ≠ .w32 ∨ x.2 % 4 ≠ 0)) ∧
    (∀ w k off, (waiting true [.access ⟨Config.taesBase + off, w, k⟩]).pending
      = .access ⟨Config.taesBase + off, w, k⟩ :: []) :=
  ⟨by decide, fun _ _ _ => rfl⟩

/-- The first and the last word of the longest array, and the bytes around a written word. -/
theorem witness_ByteLanesAreLittleEndian :
    (∀ k ∈ [0, 3], k < 4 ∧ 4 * 7 + k < 32 ∧ 4 * 0 + k < 32) ∧ (4 * 7 + 3 < 32) ∧
    (∀ i ∈ [0, 15, 20, 31], i < 32 ∧ i / 4 ≠ 4) := by decide

theorem witness_AccessOutsideWindowIsUnseen :
    Config.taesBase + 0x100 ≤ (⟨Config.taesBase + 0x100, .w32, .read⟩ : Access).addr ∧
    (waiting true [.access ⟨Config.taesBase + 0x100, .w32, .read⟩]).pending
      = .access ⟨Config.taesBase + 0x100, .w32, .read⟩ :: [] := ⟨Nat.le_refl _, rfl⟩

theorem witness_BusyHoldsTheOperands :
    (goesOn (running 0x1001 [.advance]) ∧ (running 0x1001 [.advance]).busy = true) ∧
    (goesOn (running 0x5 [.complete]) ∧ (running 0x5 [.complete]).busy = true) ∧
    (goesOn (running 0x5 [.reset none]) ∧ (running 0x5 [.reset none]).busy = true) :=
  ⟨⟨⟨_, rfl⟩, rfl⟩, ⟨⟨_, rfl⟩, rfl⟩, ⟨_, rfl⟩, rfl⟩

/-- An idle block with nothing pending, with a completion, with a phase walk, and with a read. -/
theorem witness_IdleBlockWaits :
    ((waiting false []).busy = false ∧ (waiting false []).pending = []) ∧
    ((waiting false [.complete]).busy = false ∧ (waiting false [.complete]).pending = .complete :: []) ∧
    ((waiting false [.advance]).seq = .idle ∧ (waiting false [.advance]).pending = .advance :: []) ∧
    (goesOn (waiting false [readEvent 0x40]) ∧ (waiting false [readEvent 0x40]).busy = false ∧
      (∀ off d rest, (waiting false [readEvent 0x40]).pending ≠ writeEvent off d :: rest) ∧
      (∀ rest, (waiting false [readEvent 0x40]).pending ≠ .reset none :: rest)) :=
  ⟨⟨rfl, rfl⟩, ⟨rfl, rfl⟩, ⟨rfl, rfl⟩, ⟨_, rfl⟩, rfl, fun _ _ _ => by simp [waiting], fun _ => by simp [waiting]⟩

/-- The invariants with a context loaded, and with a command running. -/
theorem witness_EveryStepKeepsTheInvariant :
    (Inv State.reset ∧ goesOn State.reset) ∧
    (Inv { keyedZero 24 with rk := expandKey (zeroBytes 32) 24 } ∧
      goesOn { keyedZero 24 with rk := expandKey (zeroBytes 32) 24 }) ∧
    (Inv (running 0x2 [.complete]) ∧ goesOn (running 0x2 [.complete])) :=
  ⟨⟨⟨rfl, rfl, rfl, by decide, by decide⟩, _, rfl⟩,
    ⟨⟨rfl, ⟨zeroBytes 32, rfl⟩, rfl, by decide, by decide⟩, _, rfl⟩,
    ⟨⟨rfl, rfl, ⟨rfl, rfl, by decide⟩, by decide, by decide⟩, _, rfl⟩⟩

theorem witness_KeySizeTracksKeyed :
    (∃ t, step (running 0x1001 []) = .next t ∧ t.ksize ≠ (running 0x1001 []).ksize ∧
      (running 0x1001 []).keyed = false ∧ (running 0x1001 []).ksize = 0) ∧
    ((keyedZero 24).keyed = true ∧ (keyedZero 24).ksize = 24 ∧ goesOn (keyedZero 24)) :=
  ⟨⟨_, rfl, by decide, rfl, rfl⟩, rfl, rfl, _, rfl⟩

theorem witness_RoundKeysChangeOnlyWithTheContext :
    ∃ t, step (running 0x1001 []) = .next t ∧ t.keyed ≠ (running 0x1001 []).keyed := ⟨_, rfl, by decide⟩

theorem witness_KeyBufferIsNeverReadBack :
    (∀ ksz tz, ¬ CompletesNext (running 0x2 []) (.init ksz tz)) ∧ goesOn (running 0x2 []) :=
  ⟨fun _ _ h => Instr.noConfusion h.2.1, _, rfl⟩

theorem witness_RoundKeysAreSeenOnlyThroughCiphers :
    (∀ idx, ¬ CompletesNext (running 0x1001 []) (.addRk idx)) ∧ ¬ CompletesNext (running 0x1001 []) .encrypt ∧
    ¬ CompletesNext (running 0x1001 []) .decrypt ∧ goesOn (running 0x1001 []) :=
  ⟨fun _ h => Instr.noConfusion h.2.1, fun h => Instr.noConfusion h.2.1, fun h => Instr.noConfusion h.2.1, _, rfl⟩

theorem witness_StepStopsOnlyOnCoincidentReset :
    (∀ a rest, (running 0x2 [.reset none]).pending ≠ .reset (some a) :: rest) ∧
    (waiting true [.reset (some ⟨0, .w32, .read⟩)]).pending = .reset (some ⟨0, .w32, .read⟩) :: [] :=
  ⟨fun _ _ h => (nomatch h), rfl⟩

theorem witness_BusyBlockCompletes :
    (running 0x1001 [.advance, writeEvent 0x04 0]).busy = true ∧
    (∀ a, Event.reset (some a) ∉ (running 0x1001 [.advance, writeEvent 0x04 0]).pending) ∧
    (running 0x2 []).busy = true ∧ (∀ a, Event.reset (some a) ∉ (running 0x2 []).pending) :=
  ⟨rfl, fun a => by simp [running, withPending], rfl, fun a => by simp [running, withPending]⟩

theorem witness_CleanupAndStatusWriteResetTheBlock :
    (waiting false [writeEvent 0x04 0x4, .complete, writeEvent 0x08 0x4]).busy = false ∧
    (waiting false [writeEvent 0x04 0x4, .complete, writeEvent 0x08 0x4]).pending
      = [writeEvent 0x04 0x4, .complete, writeEvent 0x08 0x4] := ⟨rfl, rfl⟩

/-- The first and the last phase of an INIT of 16 bytes; the three sizes, and the first and last rounds of each. -/
theorem witness_SequencerWalksThePhasesInOrder :
    ∀ x ∈ [(0, Phase.kexp 4), (39, .kexp 43)],
    (running 0x1001 (List.replicate x.1 .advance)).seq = .run 0x1001 (firstPhase 0x1001 (running 0x1001 [])) ∧
    (running 0x1001 (List.replicate x.1 .advance)).pending = List.replicate x.1 .advance ∧
    (phases (decode 0x1001) false 0)[x.1]? = some x.2 ∧
    (∀ y ∈ [(16, 4, 10), (24, 6, 12), (32, 8, 14)],
      ((y.1 = 16 ∧ y.2.1 = 4 ∧ y.2.2 = 10) ∨ (y.1 = 24 ∧ y.2.1 = 6 ∧ y.2.2 = 12) ∨
        (y.1 = 32 ∧ y.2.1 = 8 ∧ y.2.2 = 14)) ∧
      0 < 4 * (y.2.2 + 1) - y.2.1 ∧ 1 ≤ 1 ∧ 1 < y.2.2 ∧ 1 ≤ y.2.2 - 1 ∧ y.2.2 - 1 < y.2.2) ∧
    (∀ ksz tz, Instr.nop ≠ .init ksz tz) ∧ Instr.nop ≠ .encrypt ∧ Instr.nop ≠ .decrypt := by
  intro x h
  refine ⟨rfl, rfl, ?_, by decide, (by intro _ _ h; cases h), by decide, by decide⟩
  revert x
  decide

theorem witness_GfFieldLaws : (0x53 : Byte) ≠ 0 ∧ gmul 0x53 0xCA = 1 := by decide

theorem witness_GfMulMultipliesEveryByte :
    gmul 0x83 0x80 = 1 ∧ ∃ t, exec (.gfMul 0x83) (holding (hex 0x57575757575757575757575757575757)) = .next t :=
  ⟨by decide, _, rfl⟩

/-- The three sizes, and the ends of the index ranges of the key words and of the recurrence. -/
theorem witness_KeyExpansionRecurrence :
    ∀ x ∈ [(16, 4, 10), (24, 6, 12), (32, 8, 14)],
    ((x.1 = 16 ∧ x.2.1 = 4 ∧ x.2.2 = 10) ∨ (x.1 = 24 ∧ x.2.1 = 6 ∧ x.2.2 = 12) ∨
      (x.1 = 32 ∧ x.2.1 = 8 ∧ x.2.2 = 14)) ∧
    0 < x.2.1 ∧ x.2.1 - 1 < x.2.1 ∧ x.2.1 < 4 * (x.2.2 + 1) ∧ x.2.1 ≤ 4 * (x.2.2 + 1) - 1 := by decide

/-- InitLoadsTheContext and InitIllegalSizeDestroysTheContext: the legal sizes, and the illegal ones beside them. -/
theorem witness_InitSizes :
    (∀ ksz ∈ [16, 24, 32], ksz = 16 ∨ ksz = 24 ∨ ksz = 32) ∧
    (∀ ksz ∈ [0, 15, 17, 23, 25, 31, 33, 255], ksz ≠ 16 ∧ ksz ≠ 24 ∧ ksz ≠ 32) := by decide

/-- A key buffer that differs from another in byte `ksz` only. -/
theorem witness_InitIgnoresKeyBytesBeyondTheSize :
    ∀ ksz ∈ [16, 24], (ksz = 16 ∨ ksz = 24 ∨ ksz = 32) ∧
    (∀ i, i < ksz → byteAt (Vector.ofFn fun j : Fin 32 => if j.val = ksz then (0xFF : Byte) else 0) i
      = byteAt State.reset.key i) := by decide +kernel

/-- ADDRK without a context, at the first index past `Nr`, and at the ends of the legal range, for each size. -/
theorem witness_AddRkAddsTheEffectiveRoundKey :
    State.reset.keyed = false ∧
    (∀ x ∈ [((16 : BitVec 6), 10, 5), (24, 12, 6), (32, 14, 7)], (keyedZero x.1).keyed = true ∧
      (((keyedZero x.1).ksize = 16 ∧ x.2.1 = 10 ∧ x.2.2 = 5) ∨ ((keyedZero x.1).ksize = 24 ∧ x.2.1 = 12 ∧ x.2.2 = 6) ∨
        ((keyedZero x.1).ksize = 32 ∧ x.2.1 = 14 ∧ x.2.2 = 7)) ∧
      x.2.1 < x.2.1 + 1 ∧ 0 ≤ x.2.1 ∧ x.2.2 ≤ x.2.1 ∧ x.2.1 ≤ x.2.1) := by decide

/-- EncryptRunsThePipeline, DecryptRunsTheInversePipeline: no context, a context of each size, and the first and last inner round of each. -/
theorem witness_contextShapes :
    State.reset.keyed = false ∧ (keyedZero 16).keyed = true ∧ ContextShape (keyedZero 16) 10 5 ∧
    ContextShape (keyedZero 24) 12 6 ∧ ContextShape (keyedZero 32) 14 7 ∧
    (∀ nr ∈ [10, 12, 14], 1 ≤ 1 ∧ 1 < nr ∧ 1 ≤ nr - 1 ∧ nr - 1 < nr) :=
  ⟨rfl, rfl, .inl ⟨rfl, rfl, rfl⟩, .inr (.inl ⟨rfl, rfl, rfl⟩), .inr (.inr ⟨rfl, rfl, rfl⟩),
    by decide⟩

/-- The ends of the index ranges of ResetStateIsCleared, GfMulMultipliesEveryByte, SubBytesCommands, ShiftRowsCommands and
MixColumnsCommands: round keys, bytes, rows and columns. -/
theorem witness_indexRanges :
    (∀ j ∈ [0, 14], j < 15) ∧ (∀ i ∈ [0, 15], i < 16) ∧ (∀ i ∈ [0, 31], i < 32) ∧ (∀ r ∈ [0, 3], r < 4) := by decide

/-- An idle block with a context of 32 bytes that is to be stepped through an encryption. -/
theorem witness_SteppedPrimitivesEqualEncrypt :
    let s := { keyedZero 32 with pending := issueEvents (steppedEncryption 14) }
    s.busy = false ∧ s.keyed = true ∧ ContextShape s 14 7 ∧ s.pending = issueEvents (steppedEncryption 14) :=
  ⟨rfl, rfl, .inr (.inr ⟨rfl, rfl, rfl⟩), rfl⟩

theorem witness_EncryptThenDecryptRestoresTheBlock :
    let s := { keyedZero 32 with pending := [writeEvent 0x04 0x2, .complete, writeEvent 0x04 0x3, .complete] }
    s.busy = false ∧ s.keyed = true ∧
      s.pending = [writeEvent 0x04 0x2, .complete, writeEvent 0x04 0x3, .complete] := ⟨rfl, rfl, rfl⟩

theorem witness_ModeRejectsShortInput :
    ([] : List Byte).length ≤ 16 ∧ (List.replicate 16 (0 : Byte)).length ≤ 16 := by decide

theorem witness_ModeKeepsLengthAndAdvancesTweak :
    16 < (List.replicate 17 (0 : Byte)).length ∧ 16 < (List.replicate 32 (0 : Byte)).length := by decide

/-- The mode on the shortest input with stealing and on the shortest without. -/
theorem witness_ModeRoundTrip :
    (∃ ct t1, modeEncrypt zeroRoundKeys 10 (List.replicate 17 0) (zeroBytes 16) = .ok (ct, t1)) ∧
    (∃ ct t1, modeEncrypt zeroRoundKeys 10 (List.replicate 32 0) (zeroBytes 16) = .ok (ct, t1)) :=
  ⟨⟨_, _, rfl⟩, ⟨_, _, rfl⟩⟩

theorem witness_HostProceduresComputeTheMode :
    (keyedZero 16).busy = false ∧ (keyedZero 16).keyed = true ∧
    (∃ out t1, modeEncrypt (keyedZero 16).rk (contextRounds (keyedZero 16)) (List.replicate 17 0) (keyedZero 16).tweak
      = .ok (out, t1)) ∧
    (∃ out t1, modeDecrypt (keyedZero 16).rk (contextRounds (keyedZero 16)) (List.replicate 17 0) (keyedZero 16).tweak
      = .ok (out, t1)) :=
  ⟨rfl, rfl, ⟨_, _, rfl⟩, ⟨_, _, rfl⟩⟩

theorem witness_HostProceduresStopAtTheFirstError :
    State.reset.busy = false ∧ State.reset.keyed = false ∧ 16 < (List.replicate 17 (0 : Byte)).length ∧
    16 < (List.replicate 32 (0 : Byte)).length := by decide

end Sys2Proof.Machine.Tests
end

section
/-! PROOFS. The shared laws of the family 10_state.md: the register map read backwards, what a write in the window does to
each flag, which commands replace the context, and the four effects a step can have. -/

namespace Sys2Proof.Machine

/-! ## The register map (20_memory.md R70) -/

theorem regAt_eq_ctrl_iff (off : Nat) : regAt off = .ctrl ↔ off = 0x04 := by
  unfold regAt
  repeat' split
  all_goals simp_all

theorem regAt_eq_status_iff (off : Nat) : regAt off = .status ↔ off = 0x08 := by
  unfold regAt
  repeat' split
  all_goals simp_all

/-- The offsets of CTRL, KEY, TWEAK and BLK (10_state.md R36). -/
theorem regAt_writeDropped_iff (off : Nat) :
    (regAt off).writeDroppedWhileBusy = true ↔ off = 0x04 ∨ (0x20 ≤ off ∧ off < 0x60) := by
  unfold regAt
  repeat' split
  all_goals simp only [Reg.writeDroppedWhileBusy]
  all_goals simp; omega

/-! ## Single accesses -/

/-- A step that takes a 32-bit read of the window. -/
theorem step_readEvent {s : State} {off : Nat} {rest : List Event} (h : off < 0x100) (ha : off % 4 = 0)
    (hp : s.pending = readEvent off :: rest) : step s = .next (busRead off (withPending rest s)) := by
  rw [step_cons hp, handle, busAccess_read h ha]

/-- A step that takes a 32-bit write of the window. -/
theorem step_writeEvent {s : State} {off : Nat} {d : BitVec 64} {rest : List Event} (h : off < 0x100)
    (ha : off % 4 = 0) (hp : s.pending = writeEvent off d :: rest) :
    step s = .next (busWrite off (d.setWidth 32) (withPending rest s)) := by
  rw [step_cons hp, handle, busAccess_write h ha]

theorem busRead_of_defined {off : Nat} (h : (regAt off).unspecifiedWhileBusy = false) (s : State) :
    busRead off s = respond (.data (regValue (regAt off) s)) s :=
  if_neg fun hb => by simp [h] at hb

theorem busWrite_of_dropped {off : Nat} {s : State} (hb : s.busy = true)
    (h : (regAt off).writeDroppedWhileBusy = true) (v : Word) : busWrite off v s = respond .written (dropWrite s) := by
  rw [busWrite, if_pos ⟨hb, h⟩]

theorem busWrite_of_taken {off : Nat} {s : State} (h : ¬ (s.busy = true ∧ (regAt off).writeDroppedWhileBusy = true))
    (v : Word) : busWrite off v s = respond .written (writeReg (regAt off) v s) := by
  rw [busWrite, if_neg h]

@[simp] theorem writeReg_ksize (r : Reg) (v : Word) (s : State) : (writeReg r v s).ksize = s.ksize := by
  cases r <;> simp [writeReg]

@[simp] theorem writeReg_keyed (r : Reg) (v : Word) (s : State) : (writeReg r v s).keyed = s.keyed := by
  cases r <;> simp [writeReg]

theorem writeReg_werr (r : Reg) (v : Word) (s : State) :
    (writeReg r v s).werr = if r = .status ∧ v.getLsbD 2 = true then false else s.werr := by
  cases r <;> simp [writeReg]

theorem writeReg_err (r : Reg) (v : Word) (s : State) : (writeReg r v s).err = if r = .ctrl then 0 else s.err := by
  cases r <;> simp [writeReg]

@[simp] theorem busWrite_ksize (off : Nat) (v : Word) (s : State) : (busWrite off v s).ksize = s.ksize := by
  rcases busWrite_cases off v s with ⟨_, _, h⟩ | ⟨_, h⟩ <;> simp [h]

@[simp] theorem busWrite_keyed (off : Nat) (v : Word) (s : State) : (busWrite off v s).keyed = s.keyed := by
  rcases busWrite_cases off v s with ⟨_, _, h⟩ | ⟨_, h⟩ <;> simp [h]

/-- A write sets WERR only where it is dropped (10_state.md R36). -/
theorem busWrite_sets_werr {off : Nat} {v : Word} {s : State} (h0 : s.werr = false)
    (h1 : (busWrite off v s).werr = true) : s.busy = true ∧ (off = 0x04 ∨ (0x20 ≤ off ∧ off < 0x60)) := by
  rcases busWrite_cases off v s with ⟨hb, hd, _⟩ | ⟨_, h⟩
  · exact ⟨hb, (regAt_writeDropped_iff off).mp hd⟩
  · simp [h, writeReg_werr, h0] at h1

/-- A write clears WERR only at STATUS, by bit 2 (10_state.md R33, R36). -/
theorem busWrite_clears_werr {off : Nat} {v : Word} {s : State} (h1 : s.werr = true)
    (h0 : (busWrite off v s).werr = false) : off = 0x08 ∧ v.getLsbD 2 = true := by
  rcases busWrite_cases off v s with ⟨_, _, h⟩ | ⟨_, h⟩
  · simp [h] at h0
  · simpa [h, writeReg_werr, h1, regAt_eq_status_iff] using h0

/-- A write changes ERR only by an acceptance (10_state.md R37). -/
theorem busWrite_changes_err {off : Nat} {v : Word} {s : State} (h : (busWrite off v s).err ≠ s.err) :
    s.busy = false ∧ off = 0x04 ∧ (busWrite off v s).err = 0 := by
  rcases busWrite_cases off v s with ⟨_, _, hw⟩ | ⟨hd, hw⟩
  · simp [hw] at h
  · simp only [hw, respond_err, writeReg_err, regAt_eq_ctrl_iff] at h ⊢
    have hoff : off = 0x04 := by
      by_contra hne
      simp [hne] at h
    have hidle : s.busy = false := by
      simpa [regAt_writeDropped_iff, hoff] using hd
    exact ⟨hidle, hoff, if_pos hoff⟩

/-- A host access is a 32-bit write of the window, or it changes nothing but the answers and the count of draws
(20_memory.md R70, R72, R74). -/
theorem busAccess_write_or_unchanged (a : Access) (s : State) :
    (∃ off d, a = ⟨Config.taesBase + off, .w32, .write d⟩ ∧ off < 0x100 ∧ off % 4 = 0 ∧
      busAccess a s = busWrite off (d.setWidth 32) s) ∨
    ∃ rs n, busAccess a s = { s with responses := rs, draws := n } := by
  rcases busAccess_cases a s with ⟨_, h⟩ | ⟨off, _, _, _, _, h⟩ | ⟨off, d, hw, hwidth, ha, hk, h⟩ | ⟨_, _, _, h⟩
  · exact .inr ⟨s.responses, s.draws, h⟩
  · rcases busRead_cases off s with ⟨_, _, hr⟩ | ⟨_, hr⟩
    · exact .inr ⟨_, _, h.trans hr⟩
    · exact .inr ⟨_, s.draws, h.trans hr⟩
  · obtain ⟨haddr, hoff⟩ := windowOffset_eq_some hw
    refine .inl ⟨off, d, ?_, hoff, ha, h⟩
    cases a
    simp_all
  · cases hk : a.kind with
    | read => exact .inr ⟨_, _, by rw [h, busError, hk]; rfl⟩
    | write d => exact .inr ⟨_, s.draws, by rw [h, busError, hk]; rfl⟩

/-! ## Completions -/

/-- A completion's next state is a retired one, and it keeps what belongs to the bus and the environment. -/
theorem exec_next {i : Instr} {s t : State} (h : exec i s = .next t) :
    ∃ code u, t = retired code u ∧ SameEnvironment s u := by
  obtain ⟨code, u, he, hu⟩ := exec_retires i s
  rw [he] at h
  injection h with h
  exact ⟨code, u, h.symm, hu⟩

theorem exec_werr {i : Instr} {s t : State} (h : exec i s = .next t) : t.werr = s.werr := by
  obtain ⟨code, u, rfl, _, hwerr, _⟩ := exec_next h
  exact hwerr

theorem exec_pending {i : Instr} {s t : State} (h : exec i s = .next t) : t.pending = s.pending := by
  obtain ⟨code, u, rfl, _, _, hpending, _⟩ := exec_next h
  exact hpending

/-- The codes of 60_exceptions.md R270 are 0 to 4. -/
theorem errNumber_le (code : ErrCode) : (errNumber code).toNat ≤ 4 := by
  cases code <;> decide

theorem exec_err_le {i : Instr} {s t : State} (h : exec i s = .next t) : t.err.toNat ≤ 4 := by
  obtain ⟨code, u, rfl, _⟩ := exec_next h
  exact errNumber_le code

/-- A command other than INIT and CLEANUP writes no cell but TWEAK, BLK and its result (10_state.md section 6). -/
theorem exec_keeps_context {i : Instr} (hinit : ∀ ksz tz, i ≠ .init ksz tz) (hcleanup : i ≠ .cleanup) (s : State) :
    ∃ code tweak blk, exec i s = .next (retired code { s with tweak := tweak, blk := blk }) := by
  cases i with
  | init ksz tz => exact absurd rfl (hinit ksz tz)
  | cleanup => exact absurd rfl hcleanup
  | encrypt =>
    by_cases h : s.keyed = true
    · exact ⟨_, s.tweak, _, if_pos h⟩
    · exact ⟨_, s.tweak, s.blk, if_neg h⟩
  | decrypt =>
    by_cases h : s.keyed = true
    · exact ⟨_, s.tweak, _, if_pos h⟩
    · exact ⟨_, s.tweak, s.blk, if_neg h⟩
  | addRk idx =>
    by_cases hk : (!s.keyed) = true
    · exact ⟨_, s.tweak, s.blk, if_pos hk⟩
    · by_cases hi : contextRounds s < idx
      · exact ⟨_, s.tweak, s.blk, (if_neg hk).trans (if_pos hi)⟩
      · exact ⟨_, s.tweak, _, (if_neg hk).trans (if_neg hi)⟩
  | nop => exact ⟨_, s.tweak, s.blk, rfl⟩
  | reserved67 odd => exact ⟨_, s.tweak, s.blk, rfl⟩
  | tweakInc => exact ⟨_, _, s.blk, rfl⟩
  | subBytes => exact ⟨_, s.tweak, _, rfl⟩
  | invSubBytes => exact ⟨_, s.tweak, _, rfl⟩
  | shiftRows => exact ⟨_, s.tweak, _, rfl⟩
  | invShiftRows => exact ⟨_, s.tweak, _, rfl⟩
  | mixColumns => exact ⟨_, s.tweak, _, rfl⟩
  | invMixColumns => exact ⟨_, s.tweak, _, rfl⟩
  | gfMul gfc => exact ⟨_, s.tweak, _, rfl⟩

/-! ## The tie of KSIZE to KEYED (10_state.md R39) -/

theorem keySizeInv_iff (s : State) :
    KeySizeInv s ↔ if s.keyed then s.ksize = 16 ∨ s.ksize = 24 ∨ s.ksize = 32 else s.ksize = 0 := by
  simp [KeySizeInv, validKeySize_iff, ← BitVec.toNat_inj]

theorem keySizeInv_congr {s t : State} (hksize : t.ksize = s.ksize) (hkeyed : t.keyed = s.keyed) :
    KeySizeInv t ↔ KeySizeInv s := by
  rw [keySizeInv_iff, keySizeInv_iff, hksize, hkeyed]

/-- A legal size fits the six bits of KSIZE, so a loaded context has it (41_key_schedule.md R145). -/
theorem keySizeInv_loadContext {ksz : Nat} (h : validKeySize ksz = true) (code : ErrCode) (tz : Bool) (s : State) :
    KeySizeInv (retired code (loadContext ksz tz s)) := by
  rw [keySizeInv_iff]
  rcases (validKeySize_iff ksz).mp h with rfl | rfl | rfl <;> simp

theorem exec_keySizeInv {i : Instr} {s t : State} (h : exec i s = .next t) (hs : KeySizeInv s) : KeySizeInv t := by
  by_cases hinit : ∃ ksz tz, i = .init ksz tz
  · obtain ⟨ksz, tz, rfl⟩ := hinit
    by_cases hsize : validKeySize ksz = true
    · rw [exec, execInit, if_pos hsize] at h
      injection h with h
      exact h ▸ keySizeInv_loadContext hsize _ tz s
    · rw [exec, execInit, if_neg hsize] at h
      injection h with h
      exact h ▸ rfl
  by_cases hcleanup : i = .cleanup
  · subst hcleanup
    injection h with h
    exact h ▸ rfl
  · obtain ⟨code, tweak, blk, he⟩ := exec_keeps_context (by simpa using hinit) hcleanup s
    rw [he] at h
    injection h with h
    exact h ▸ (keySizeInv_congr rfl rfl).mpr hs

/-- A command that changes KSIZE is an INIT or a CLEANUP (10_state.md R39). -/
theorem exec_changes_ksize {i : Instr} {s t : State} (h : exec i s = .next t) (hne : t.ksize ≠ s.ksize) :
    (∃ ksz tz, i = .init ksz tz) ∨ i = .cleanup := by
  by_contra hnot
  obtain ⟨hinit, hcleanup⟩ := not_or.mp hnot
  obtain ⟨code, tweak, blk, he⟩ := exec_keeps_context (by simpa using hinit) hcleanup s
  rw [he] at h
  injection h with h
  exact hne (h ▸ rfl)

/-! ## Steps -/

/-- With BUSY = 1 the block's turn completes the command in CTRL. -/
theorem completesNext_of_blockTurn {s : State} {rest : List Event} (h : BlockTurn s rest) (hb : s.busy = true) :
    CompletesNext s (decode s.ctrl) :=
  ⟨hb, rfl, h.elim (fun hc => .inr ⟨rest, hc⟩) fun hn => .inl hn.1⟩

/-- The four effects of a step on the block's registers: a 32-bit write of the window, none at all (SEQ may walk on), a
completion, or a reset. -/
theorem step_effects {s t : State} (h : step s = .next t) :
    (∃ off d rest, s.pending = writeEvent off d :: rest ∧ off < 0x100 ∧ off % 4 = 0 ∧
      t = busWrite off (d.setWidth 32) (withPending rest s)) ∨
    (∃ seq rest rs n, t = { s with seq := seq, pending := rest, responses := rs, draws := n }) ∨
    (∃ i, CompletesNext s i ∧ exec i (withPending t.pending s) = .next t) ∨
    (∃ rest, s.pending = .reset none :: rest ∧ t = resetBlock (withPending rest s)) := by
  rcases step_cases h with ⟨a, rest, hp, ht⟩ | ⟨rest, _, ht⟩ | ⟨rest, hturn, hb, he⟩ | ⟨rest, _, _, ht⟩ | hreset
  · rcases busAccess_write_or_unchanged a (withPending rest s) with ⟨off, d, rfl, hoff, ha, hw⟩ | ⟨rs, n, hu⟩
    · exact .inl ⟨off, d, rest, hp, hoff, ha, ht.trans hw⟩
    · exact .inr (.inl ⟨_, _, rs, n, ht.trans hu⟩)
  · rcases advance_cases (withPending rest s) with hu | ⟨w, ph, next, _, _, hw⟩
    · exact .inr (.inl ⟨_, _, _, _, ht.trans hu⟩)
    · exact .inr (.inl ⟨_, _, _, _, ht.trans hw⟩)
  · have hrest : t.pending = rest := exec_pending he
    exact .inr (.inr (.inl ⟨_, completesNext_of_blockTurn hturn hb, hrest ▸ he⟩))
  · exact .inr (.inl ⟨_, _, _, _, ht⟩)
  · exact .inr (.inr (.inr hreset))

theorem keySizeInv_reset : KeySizeInv State.reset := rfl

/-- Every step keeps the tie of KSIZE to KEYED (10_state.md R39). -/
theorem step_keySizeInv {s t : State} (h : step s = .next t) (hs : KeySizeInv s) : KeySizeInv t := by
  rcases step_effects h with ⟨off, d, rest, _, _, _, rfl⟩ | ⟨_, _, _, _, rfl⟩ | ⟨i, _, he⟩ | ⟨rest, _, rfl⟩
  · exact (keySizeInv_congr (by simp) (by simp)).mpr hs
  · exact (keySizeInv_congr rfl rfl).mpr hs
  · exact exec_keySizeInv he ((keySizeInv_congr rfl rfl).mpr hs)
  · exact (keySizeInv_congr rfl rfl).mpr keySizeInv_reset

end Sys2Proof.Machine
end

section
/-! PROOFS. The obligations of the family 10_state.md: STATUS and its flags, KSIZE, and the reset values. -/

namespace Sys2Proof.Machine

/-! ## The bits of STATUS (10_state.md R33) -/

theorem statusWord_busy (s : State) : (statusWord s).getLsbD 0 = s.busy := by
  simp only [statusWord, BitVec.getLsbD_append]
  simp

theorem statusWord_keyed (s : State) : (statusWord s).getLsbD 1 = s.keyed := by
  simp only [statusWord, BitVec.getLsbD_append]
  simp

theorem statusWord_werr (s : State) : (statusWord s).getLsbD 2 = s.werr := by
  simp only [statusWord, BitVec.getLsbD_append]
  simp

theorem statusWord_bit3 (s : State) : (statusWord s).getLsbD 3 = false := by
  simp only [statusWord, BitVec.getLsbD_append]
  simp

/-- Above bit 3, STATUS is ERR and zeros. -/
theorem statusWord_shift4 (s : State) : statusWord s >>> 4 = s.err.setWidth 32 := by
  apply BitVec.eq_of_getLsbD_eq
  intro i hi
  simp only [statusWord, BitVec.getLsbD_ushiftRight, BitVec.getLsbD_append, BitVec.getLsbD_setWidth]
  rw [if_neg (by omega), if_neg (by omega), if_neg (by omega), if_neg (by omega),
    show 4 + i - 1 - 1 - 1 - 1 = i by omega]
  by_cases h : i < 4
  · simp [h, hi]
  · simp [h, hi, BitVec.getLsbD_of_ge s.err i (by omega)]

theorem err_mask (e : BitVec 4) : e.setWidth 32 &&& 0xF#32 = e.setWidth 32 := by
  revert e; decide

theorem err_shift4 (e : BitVec 4) : e.setWidth 32 >>> 4 = 0#32 := by
  revert e; decide

/-- Settles O12: a STATUS read answers `statusWord`, and a STATUS write is taken whether or not BUSY = 1. -/
theorem statusLayoutAndWrite : Obligations.StatusLayoutAndWrite := by
  refine ⟨?_, ?_, rfl⟩
  · intro s rest hp
    refine ⟨statusWord s, ?_, statusWord_busy s, statusWord_keyed s, statusWord_werr s, statusWord_bit3 s, ?_, ?_⟩
    · rw [step_readEvent (by decide) (by decide) hp, busRead_of_defined rfl]
      rfl
    · rw [statusWord_shift4, err_mask]
    · rw [show (8 : Nat) = 4 + 4 from rfl, BitVec.shiftRight_add, statusWord_shift4, err_shift4]
      rfl
  · intro s rest d hp
    have hbit : (d.setWidth 32).getLsbD 2 = d.getLsbD 2 := by simp
    have htaken : ¬ (s.busy = true ∧ (regAt 0x08).writeDroppedWhileBusy = true) := by
      simp [regAt_writeDropped_iff]
    rw [step_writeEvent (by decide) (by decide) hp, busWrite_of_taken (s := withPending rest s) htaken, ← hbit]
    rfl

/-- Settles O13: of the four effects of a step, only a write and a reset reach WERR. -/
theorem writeWhileBusyIsDropped : Obligations.WriteWhileBusyIsDropped := by
  refine ⟨?_, ?_, ?_, rfl⟩
  · intro s rest off d ha hoff hp hb
    refine ⟨.written, ?_⟩
    rw [step_writeEvent (by omega) ha hp,
      busWrite_of_dropped (s := withPending rest s) hb ((regAt_writeDropped_iff off).mpr hoff)]
    rfl
  · intro s t h h0 h1
    rcases step_effects h with ⟨off, d, rest, hp, _, ha, rfl⟩ | ⟨_, _, _, _, rfl⟩ | ⟨i, _, he⟩ | ⟨_, _, rfl⟩
    · obtain ⟨hb, hoff⟩ := busWrite_sets_werr (s := withPending rest s) h0 h1
      exact ⟨hb, off, d, rest, hp, ha, hoff⟩
    · exact absurd (h0.symm.trans h1) Bool.false_ne_true
    · exact absurd (h0.symm.trans ((exec_werr he).symm.trans h1)) Bool.false_ne_true
    · exact absurd h1 Bool.false_ne_true
  · intro s t h h1 h0
    rcases step_effects h with ⟨off, d, rest, hp, _, _, rfl⟩ | ⟨_, _, _, _, rfl⟩ | ⟨i, _, he⟩ | ⟨rest, hp, _⟩
    · obtain ⟨rfl, hbit⟩ := busWrite_clears_werr (s := withPending rest s) h1 h0
      exact .inl ⟨d, rest, hp, by simpa using hbit⟩
    · exact absurd (h0.symm.trans h1) Bool.false_ne_true
    · exact absurd (h0.symm.trans ((exec_werr he).trans h1)) Bool.false_ne_true
    · exact .inr ⟨rest, hp⟩

/-- Settles O14: of the four effects of a step, a write changes ERR only by an acceptance. -/
theorem errChangesOnlyWithACommand : Obligations.ErrChangesOnlyWithACommand := by
  refine ⟨?_, ?_, fun i s t h => exec_err_le h, rfl⟩
  · intro s t h hne
    rcases step_effects h with ⟨off, d, rest, hp, _, _, rfl⟩ | ⟨_, _, _, _, rfl⟩ | ⟨i, hc, he⟩ | ⟨rest, hp, rfl⟩
    · obtain ⟨hb, rfl, herr⟩ := busWrite_changes_err (s := withPending rest s) hne
      exact .inl ⟨hb, herr, d, rest, hp⟩
    · exact absurd rfl hne
    · exact .inr (.inl ⟨i, t, hc, he, rfl⟩)
    · exact .inr (.inr ⟨rfl, rest, hp⟩)
  · intro s t d rest hp hb h
    rw [step_writeEvent (by decide) (by decide) hp, busWrite_of_taken (by simp [hb])] at h
    injection h with h
    exact h ▸ rfl

/-- Settles O24: the tie is `KeySizeInv`, which every step keeps; only INIT, CLEANUP and reset write KSIZE. -/
theorem keySizeTracksKeyed : Obligations.KeySizeTracksKeyed := by
  refine ⟨rfl, ?_, ?_⟩
  · intro s t h hs
    exact (keySizeInv_iff t).mp (step_keySizeInv h ((keySizeInv_iff s).mpr hs))
  · intro s t h hne
    rcases step_effects h with ⟨off, d, rest, _, _, _, rfl⟩ | ⟨_, _, _, _, rfl⟩ | ⟨i, hc, he⟩ | ⟨rest, hp, _⟩
    · exact absurd (by simp) hne
    · exact absurd rfl hne
    · rcases exec_changes_ksize he hne with ⟨ksz, tz, rfl⟩ | rfl
      · exact .inl ⟨ksz, tz, hc⟩
      · exact .inr (.inl hc)
    · exact .inr (.inr ⟨rest, hp⟩)

/-! ## Reset (10_state.md R48) -/

theorem roundKeyAt_zeroRoundKeys {j : Nat} (h : j < 15) : roundKeyAt zeroRoundKeys j = zeroBytes 16 := by
  simp [roundKeyAt_eq_getElem _ h, zeroRoundKeys]

/-- Settles O5: the registers compute; the byte arrays are zero byte by byte. -/
theorem resetStateIsCleared : Obligations.ResetStateIsCleared := by
  refine ⟨rfl, rfl, rfl, rfl, rfl, rfl, rfl, rfl, rfl, ?key, ?blocks, ?roundKeys, rfl⟩
  case key => exact fun i _ => byteAt_zeroBytes 32 i
  case blocks => exact fun i _ => ⟨byteAt_zeroBytes 16 i, byteAt_zeroBytes 16 i⟩
  case roundKeys =>
    intro j i hj _
    have hrk : roundKeyAt State.reset.rk j = zeroBytes 16 := roundKeyAt_zeroRoundKeys hj
    rw [hrk, byteAt_zeroBytes]

end Sys2Proof.Machine
end

section
/-! PROOFS. The shared laws of the family 20_memory.md: the register map by ranges of offsets, the byte lanes of the bus, and
the next state of one 32-bit access. -/

namespace Sys2Proof.Machine

/-! ## The register map by ranges (20_memory.md R70) -/

theorem regAt_of_reserved {off : Nat} (h : (0x10 ≤ off ∧ off < 0x20) ∨ 0x60 ≤ off) : regAt off = .reserved := by
  rcases h with ⟨hlo, hhi⟩ | hlo <;> simp (disch := omega) only [regAt, if_neg, if_pos]

theorem regAt_of_key {off : Nat} (hlo : 0x20 ≤ off) (hhi : off < 0x40) : regAt off = .key ((off - 0x20) / 4) := by
  simp (disch := omega) only [regAt, if_neg, if_pos]

theorem regAt_of_tweak {off : Nat} (hlo : 0x40 ≤ off) (hhi : off < 0x50) : regAt off = .tweak ((off - 0x40) / 4) := by
  simp (disch := omega) only [regAt, if_neg, if_pos]

theorem regAt_of_blk {off : Nat} (hlo : 0x50 ≤ off) (hhi : off < 0x60) : regAt off = .blk ((off - 0x50) / 4) := by
  simp (disch := omega) only [regAt, if_neg, if_pos]

/-- The offsets of TWEAK and BLK (20_memory.md R76). -/
theorem regAt_unspecified_iff (off : Nat) : (regAt off).unspecifiedWhileBusy = true ↔ 0x40 ≤ off ∧ off < 0x60 := by
  unfold regAt
  repeat' split
  all_goals simp only [Reg.unspecifiedWhileBusy]
  all_goals simp; omega

/-! ## The byte lanes (20_memory.md R75) -/

/-- A byte lane by shift and truncation. -/
theorem laneByte_eq (w : Word) (k : Nat) : laneByte w k = (w >>> (8 * k)).setWidth 8 := rfl

/-- A 32-bit write carries the low four bytes of the access's data. -/
theorem laneByte_setWidth (d : BitVec 64) {k : Nat} (h : k < 4) :
    laneByte (d.setWidth 32) k = (d >>> (8 * k)).setWidth 8 :=
  BitVec.extractLsb'_setWidth_of_le (by omega)

/-- Lane `k` of a read is byte `k` of the word read: each `++` passed drops the eight bits below. -/
theorem laneByte_readLanes {n : Nat} (a : Vector Byte n) (j : Nat) {k : Nat} (h : k < 4) :
    laneByte (readLanes a j) k = byteAt a (4 * j + k) := by
  unfold laneByte readLanes
  interval_cases k
  · exact BitVec.extractLsb'_append_eq_right
  · rw [BitVec.extractLsb'_append_eq_of_le (by decide)]
    exact BitVec.extractLsb'_append_eq_right
  · rw [BitVec.extractLsb'_append_eq_of_le (by decide), BitVec.extractLsb'_append_eq_of_le (by decide)]
    exact BitVec.extractLsb'_append_eq_right
  · rw [BitVec.extractLsb'_append_eq_of_le (by decide), BitVec.extractLsb'_append_eq_of_le (by decide)]
    exact BitVec.extractLsb'_append_eq_left

/-- The bytes of the word read at `off`, in an array that starts at the offset `base`. -/
theorem readLanes_at_offset {n base off k : Nat} (a : Vector Byte n) (halign : (off - base) % 4 = 0) (hk : k < 4) :
    (readLanes a ((off - base) / 4) >>> (8 * k)).setWidth 8 = byteAt a (off - base + k) := by
  have hword : 4 * ((off - base) / 4) = off - base := by omega
  rw [← laneByte_eq, laneByte_readLanes a _ hk, hword]

/-- A write at `off` puts the four low bytes of the data into the word there, in an array that starts at the offset `base`, and
keeps the other bytes. -/
theorem byteAt_writeLanes_at_offset {n base off i : Nat} (a : Vector Byte n) (d : BitVec 64) (hbase : base ≤ off)
    (halign : (off - base) % 4 = 0) (hi : i < n) :
    byteAt (writeLanes a ((off - base) / 4) (d.setWidth 32)) i =
      if base + i / 4 * 4 = off then (d >>> (8 * (i % 4))).setWidth 8 else byteAt a i := by
  have hword : i / 4 = (off - base) / 4 ↔ base + i / 4 * 4 = off := by omega
  simp only [byteAt_writeLanes a _ _ hi, hword, laneByte_setWidth d (Nat.mod_lt i (by decide))]

/-! ## The next state of an access (20_memory.md R73, R74) -/

/-- ID, INFO and the reserved offsets ignore a write (20_memory.md R73). -/
theorem writeReg_of_ignored {off : Nat} (h : off = 0x00 ∨ (0x0C ≤ off ∧ off < 0x20) ∨ 0x60 ≤ off) (ha : off % 4 = 0)
    (v : Word) (s : State) : writeReg (regAt off) v s = s := by
  have hreg : off = 0x00 ∨ off = 0x0C ∨ (0x10 ≤ off ∧ off < 0x20) ∨ 0x60 ≤ off := by omega
  rcases hreg with rfl | rfl | hreserved
  · rfl
  · rfl
  · rw [regAt_of_reserved hreserved, writeReg]

/-- The effect of a write does not depend on the events to come. -/
theorem respond_writeReg_withPending (r : Reg) (v : Word) (rest : List Event) (s : State) :
    respond .written (writeReg r v (withPending rest s)) = answered .written rest (writeReg r v s) := by
  cases r <;> rfl

/-- The value of a register does not depend on the events to come. -/
theorem regValue_withPending (r : Reg) (rest : List Event) (s : State) :
    regValue r (withPending rest s) = regValue r s := by
  cases r <;> rfl

theorem busWrite_answered_of_taken {off : Nat} {s : State}
    (h : ¬ (s.busy = true ∧ (off = 0x04 ∨ (0x20 ≤ off ∧ off < 0x60)))) (v : Word) (rest : List Event) :
    busWrite off v (withPending rest s) = answered .written rest (writeReg (regAt off) v s) := by
  rw [← regAt_writeDropped_iff] at h
  rw [busWrite_of_taken (s := withPending rest s) h, respond_writeReg_withPending]

theorem busWrite_answered_of_dropped {off : Nat} {s : State} (hb : s.busy = true)
    (h : off = 0x04 ∨ (0x20 ≤ off ∧ off < 0x60)) (v : Word) (rest : List Event) :
    busWrite off v (withPending rest s) = answered .written rest { s with werr := true } :=
  busWrite_of_dropped (s := withPending rest s) hb ((regAt_writeDropped_iff off).mpr h) v

theorem busRead_answered_of_defined {off : Nat} {s : State} (h : ¬ (s.busy = true ∧ 0x40 ≤ off ∧ off < 0x60))
    (rest : List Event) :
    busRead off (withPending rest s) = answered (.data (regValue (regAt off) s)) rest s := by
  rw [← regAt_unspecified_iff] at h
  rw [← regValue_withPending]
  exact if_neg h

/-! ## STATUS and INFO as numbers (10_state.md R33, R38) -/

/-- STATUS by shifts: a check of every value of its four fields. -/
theorem statusWord_eq (s : State) :
    statusWord s = (s.err.setWidth 32 <<< 4) ||| ((BitVec.ofBool s.werr).setWidth 32 <<< 2)
      ||| ((BitVec.ofBool s.keyed).setWidth 32 <<< 1) ||| (BitVec.ofBool s.busy).setWidth 32 := by
  unfold statusWord
  generalize s.err = err, s.werr = werr, s.keyed = keyed, s.busy = busy
  revert err werr keyed busy
  decide

theorem infoWord_of_unkeyed {s : State} (h : s.keyed = false) : infoWord s = 0 := by
  simp [infoWord, h]

/-- INFO of a context depends on KSIZE only. -/
theorem infoWord_of_keyed {s : State} (h : s.keyed = true) :
    infoWord s = infoWord { State.reset with keyed := true, ksize := s.ksize } := by
  simp [infoWord, contextRounds, h]

end Sys2Proof.Machine
end

section
/-! PROOFS. The obligations of the family 20_memory.md: the 32-bit writes and reads of the window. -/

namespace Sys2Proof.Machine

/-- Settles O15: the write is one `busWrite`; each clause names the offsets of one register, and whether BUSY = 1 there drops
the write. -/
theorem registerWrites : Obligations.RegisterWrites := by
  intro s rest off d hoff ha hp
  refine ⟨_, step_writeEvent hoff ha hp, ?ctrl, ?status, ?key, ?tweak, ?blk, ?dropped, ?ignored⟩
  case ctrl =>
    rintro rfl hb
    rw [busWrite_answered_of_taken (by simp [hb])]
    exact ⟨rfl, rfl, rfl, ⟨_, rfl⟩, rfl⟩
  case status =>
    rintro rfl
    have hbit : (d.setWidth 32).getLsbD 2 = d.getLsbD 2 := by simp
    rw [busWrite_answered_of_taken (by simp), ← hbit]
    rfl
  case key =>
    intro hlo hhi hb
    rw [busWrite_answered_of_taken (by simp [hb]), regAt_of_key hlo hhi]
    exact ⟨rfl, fun i hi => byteAt_writeLanes_at_offset s.key d hlo (by omega) hi⟩
  case tweak =>
    intro hlo hhi hb
    rw [busWrite_answered_of_taken (by simp [hb]), regAt_of_tweak hlo hhi]
    exact ⟨rfl, fun i hi => byteAt_writeLanes_at_offset s.tweak d hlo (by omega) hi⟩
  case blk =>
    intro hlo hhi hb
    rw [busWrite_answered_of_taken (by simp [hb]), regAt_of_blk hlo hhi]
    exact ⟨rfl, fun i hi => byteAt_writeLanes_at_offset s.blk d hlo (by omega) hi⟩
  case dropped =>
    intro hreg hb
    exact ⟨_, busWrite_answered_of_dropped hb hreg _ rest⟩
  case ignored =>
    intro hreg
    refine ⟨.written, ?_⟩
    rw [busWrite_answered_of_taken (by omega), writeReg_of_ignored hreg ha]

/-- Settles O16: a defined read answers `regValue`; each clause reads it off at the offsets of one register. -/
theorem registerReads : Obligations.RegisterReads := by
  intro s rest off hoff ha hdefined hp
  refine ⟨regValue (regAt off) s, ?step, ?id, ?ctrl, ?status, ?unkeyed, ?info16, ?info24, ?info32, ?zero,
    ?tweak, ?blk, ?top⟩
  case step => rw [step_readEvent hoff ha hp, busRead_answered_of_defined hdefined]
  case id => rintro rfl; rfl
  case ctrl => rintro rfl; rfl
  case status => rintro rfl; exact statusWord_eq s
  case unkeyed => rintro rfl hk; exact infoWord_of_unkeyed hk
  case info16 => rintro rfl hk hs; exact (infoWord_of_keyed hk).trans (by rw [hs]; rfl)
  case info24 => rintro rfl hk hs; exact (infoWord_of_keyed hk).trans (by rw [hs]; rfl)
  case info32 => rintro rfl hk hs; exact (infoWord_of_keyed hk).trans (by rw [hs]; rfl)
  case zero =>
    intro hlo hhi
    by_cases hkey : 0x20 ≤ off
    · rw [regAt_of_key hkey hhi, regValue]
    · rw [regAt_of_reserved (by omega), regValue]
  case tweak =>
    intro hlo hhi k hk
    rw [regAt_of_tweak hlo hhi]
    exact readLanes_at_offset s.tweak (by omega) hk
  case blk =>
    intro hlo hhi k hk
    rw [regAt_of_blk hlo hhi]
    exact readLanes_at_offset s.blk (by omega) hk
  case top =>
    intro hlo
    rw [regAt_of_reserved (.inr hlo), regValue]

end Sys2Proof.Machine
end

section
/-! PROOFS. The shared laws of the family 30_encoding.md: the fields by shift and mask, the decoder as
the table of R105 over the opcode number, and the words that decode alike. -/

namespace Sys2Proof

/-! ## Fields under a mask (30_encoding.md R101) -/

/-- A mask that covers a field keeps it. -/
theorem extractLsb'_and_of_covers {start len : Nat} {mask : Word}
    (hmask : mask.extractLsb' start len = BitVec.allOnes len) (w : Word) :
    (w &&& mask).extractLsb' start len = w.extractLsb' start len := by
  rw [BitVec.extractLsb'_and, hmask, BitVec.and_allOnes]

/-- Words that agree under a mask agree in every field it covers. -/
theorem extractLsb'_eq_of_and_eq {start len : Nat} {mask w v : Word}
    (hmask : mask.extractLsb' start len = BitVec.allOnes len) (h : w &&& mask = v &&& mask) :
    w.extractLsb' start len = v.extractLsb' start len := by
  rw [← extractLsb'_and_of_covers hmask w, h, extractLsb'_and_of_covers hmask v]

/-- A field as a number is the word shifted down to it and masked to its length. -/
theorem toNat_extractLsb'_eq_shift_mask (w : Word) (start : Nat) {len : Nat} (h : len ≤ 32) :
    (w.extractLsb' start len).toNat = ((w >>> start) &&& BitVec.ofNat 32 (2 ^ len - 1)).toNat := by
  have hmask : 2 ^ len - 1 < 2 ^ 32 :=
    (Nat.sub_lt (Nat.two_pow_pos len) Nat.one_pos).trans_le (Nat.pow_le_pow_right Nat.two_pos h)
  rw [BitVec.extractLsb'_toNat, BitVec.toNat_and, BitVec.toNat_ofNat, Nat.mod_eq_of_lt hmask,
    Nat.and_two_pow_sub_one_eq_mod, BitVec.toNat_ushiftRight]

theorem fieldKsz_eq_shift_mask (w : Word) : fieldKsz w = ((w >>> 8) &&& 0xFF#32).toNat :=
  toNat_extractLsb'_eq_shift_mask w 8 (by decide)

theorem fieldIdx_eq_shift_mask (w : Word) : fieldIdx w = ((w >>> 4) &&& 0xF#32).toNat :=
  toNat_extractLsb'_eq_shift_mask w 4 (by decide)

theorem fieldTz_eq_shift_mask (w : Word) : fieldTz w = (((w >>> 16) &&& 1#32) == 1#32) := by
  rw [BitVec.and_one_eq_setWidth_ofBool_getLsbD, BitVec.getLsbD_ushiftRight]
  change w.getLsbD 16 = _
  cases w.getLsbD 16 <;> rfl

theorem fieldTz_eq_of_and_eq {mask w v : Word} (hmask : mask.getLsbD 16 = true) (h : w &&& mask = v &&& mask) :
    fieldTz w = fieldTz v := by
  have hbit : (w &&& mask).getLsbD 16 = (v &&& mask).getLsbD 16 := by rw [h]
  rwa [BitVec.getLsbD_and, BitVec.getLsbD_and, hmask, Bool.and_true, Bool.and_true] at hbit

/-! ## The opcode map (30_encoding.md R105, R106) -/

/-- The command of the opcode number `cmd`, with the operands of the word `w`; the number left to the last row is
0x0. -/
def opcodeMap (cmd : BitVec 4) (w : Word) : Instr :=
  match cmd with
  | 0x1#4 => .init (fieldKsz w) (fieldTz w)
  | 0x2#4 => .encrypt
  | 0x3#4 => .decrypt
  | 0x4#4 => .cleanup
  | 0x5#4 => .tweakInc
  | 0x6#4 => .reserved67 false
  | 0x7#4 => .reserved67 true
  | 0x8#4 => .subBytes
  | 0x9#4 => .invSubBytes
  | 0xA#4 => .shiftRows
  | 0xB#4 => .invShiftRows
  | 0xC#4 => .mixColumns
  | 0xD#4 => .invMixColumns
  | 0xE#4 => .addRk (fieldIdx w)
  | 0xF#4 => .gfMul (fieldGfc w)
  | _ => .nop

theorem decode_eq_opcodeMap (w : Word) : decode w = opcodeMap (fieldCmd w) w := by
  have hbit : ∀ i, i < 4 → w.getLsbD i = (fieldCmd w).getLsbD i := by
    intro i hi
    simp [fieldCmd, hi]
  rw [decode, hbit 3 (by decide), hbit 2 (by decide), hbit 1 (by decide), hbit 0 (by decide)]
  generalize fieldCmd w = cmd
  symm
  unfold opcodeMap
  split
  case h_16 =>
    obtain rfl : cmd = 0x0#4 := by
      revert cmd
      decide
    rfl
  all_goals rfl

/-- The low four bits of a word, read with a mask, are the row of the opcode map that it decodes by. -/
theorem decode_of_cmd {w c : Word} (h : w &&& 0xF#32 = c) : decode w = opcodeMap (fieldCmd c) w := by
  have hcmd : fieldCmd c = fieldCmd w := h ▸ extractLsb'_and_of_covers (by decide) w
  rw [decode_eq_opcodeMap, hcmd]

/-! ## Words that decode alike (30_encoding.md R103) -/

/-- CMD by its mask. -/
theorem and_cmdMask (w : Word) : w &&& 0xF#32 = (fieldCmd w).setWidth 32 := by
  apply BitVec.eq_of_toNat_eq
  rw [BitVec.toNat_and, BitVec.toNat_setWidth_of_le (by decide), fieldCmd, BitVec.extractLsb'_toNat]
  exact Nat.and_two_pow_sub_one_eq_mod w.toNat 4

/-- A row of the opcode map reads no field but its own. -/
theorem opcodeMap_congr {cmd : BitVec 4} {w v : Word}
    (hinit : cmd = 0x1#4 → fieldKsz w = fieldKsz v ∧ fieldTz w = fieldTz v)
    (haddRk : cmd = 0xE#4 → fieldIdx w = fieldIdx v) (hgfMul : cmd = 0xF#4 → fieldGfc w = fieldGfc v) :
    opcodeMap cmd w = opcodeMap cmd v := by
  unfold opcodeMap
  split
  case h_1 =>
    obtain ⟨hksz, htz⟩ := hinit rfl
    rw [hksz, htz]
  case h_14 => rw [haddRk rfl]
  case h_15 => rw [hgfMul rfl]
  all_goals rfl

/-- Words that agree under the masks of CMD and of the fields their command uses decode alike. -/
theorem decode_eq_of_and_eq {w v : Word} (hcmd : w &&& 0xF#32 = v &&& 0xF#32)
    (hinit : w &&& 0xF#32 = 0x1#32 → w &&& 0x0001FF00#32 = v &&& 0x0001FF00#32)
    (haddRk : w &&& 0xF#32 = 0xE#32 → w &&& 0xF0#32 = v &&& 0xF0#32)
    (hgfMul : w &&& 0xF#32 = 0xF#32 → w &&& 0xFF000000#32 = v &&& 0xFF000000#32) : decode w = decode v := by
  have hnumber : ∀ n : BitVec 4, fieldCmd w = n → w &&& 0xF#32 = n.setWidth 32 := by
    rintro _ rfl
    exact and_cmdMask w
  have hfield : fieldCmd w = fieldCmd v := extractLsb'_eq_of_and_eq (by decide) hcmd
  rw [decode_eq_opcodeMap, decode_eq_opcodeMap, ← hfield]
  apply opcodeMap_congr
  · intro h
    have hw := hinit (hnumber _ h)
    exact ⟨congrArg BitVec.toNat (extractLsb'_eq_of_and_eq (by decide) hw), fieldTz_eq_of_and_eq (by decide) hw⟩
  · intro h
    exact congrArg BitVec.toNat (extractLsb'_eq_of_and_eq (by decide) (haddRk (hnumber _ h)))
  · intro h
    exact extractLsb'_eq_of_and_eq (by decide) (hgfMul (hnumber _ h))

end Sys2Proof
end

section
/-! PROOFS. The obligations of the family 30_encoding.md: the opcode map and the unused fields. -/

namespace Sys2Proof.Machine

/-- Settles O2: CMD under its mask selects a row of `opcodeMap`; only INIT and ADDRK have operands to rewrite. -/
theorem decodeFollowsOpcodeMap : Obligations.DecodeFollowsOpcodeMap := by
  intro w
  refine ⟨decode_of_cmd, ?init, decode_of_cmd, decode_of_cmd, decode_of_cmd, decode_of_cmd, decode_of_cmd,
    decode_of_cmd, decode_of_cmd, decode_of_cmd, decode_of_cmd, decode_of_cmd, decode_of_cmd, decode_of_cmd, ?addRk,
    decode_of_cmd⟩
  case init =>
    rw [← fieldKsz_eq_shift_mask, ← fieldTz_eq_shift_mask]
    exact decode_of_cmd
  case addRk =>
    rw [← fieldIdx_eq_shift_mask]
    exact decode_of_cmd

/-- After an accepted write of `d` to CTRL, a read of CTRL answers `d` (30_encoding.md R103). -/
theorem step_writeCtrl_step_readCtrl {s : State} {rest : List Event} {d : BitVec 64} (hb : s.busy = false)
    (hp : s.pending = writeEvent 0x04 d :: readEvent 0x04 :: rest) :
    ∃ t u, step s = .next t ∧ step t = .next u ∧ u.responses = .data (d.setWidth 32) :: .written :: s.responses := by
  have hwrite := step_writeEvent (by decide) (by decide) hp
  rw [busWrite_answered_of_taken (by simp [hb])] at hwrite
  refine ⟨_, _, hwrite, step_readEvent (by decide) (by decide) rfl, ?_⟩
  rw [busRead_answered_of_defined (by simp)]
  rfl

/-- Settles O3: a mask that covers CMD and the operands hides nothing that a command reads, 0xFF01FFFF covers them all, and
CTRL stores the word written. -/
theorem unusedFieldsAreIgnoredAndKept : Obligations.UnusedFieldsAreIgnoredAndKept := by
  refine ⟨fun w v => decode_eq_of_and_eq, ?reserved, fun s rest d => step_writeCtrl_step_readCtrl⟩
  case reserved =>
    intro w
    have hkept : ∀ mask, 0xFF01FFFF#32 &&& mask = mask → w &&& 0xFF01FFFF#32 &&& mask = w &&& mask := by
      intro mask hmask
      rw [BitVec.and_assoc, hmask]
    exact decode_eq_of_and_eq (hkept _ rfl) (fun _ => hkept _ rfl) (fun _ => hkept _ rfl) (fun _ => hkept _ rfl)

end Sys2Proof.Machine
end

section
/-! PROOFS. The shared laws of the family 40_gf_arith.md: GF(2^8) multiplication as a commutative, associative product with
an identity and a zero, and what it does to a whole block. Multiplication by a fixed right factor is linear and commutes with
doubling, so it passes through the shift-and-add loop; commutativity and associativity are that fact read at two
multiplicands. -/

namespace Sys2Proof.Machine

/-! ## The field laws (40_gf_arith.md R122, R124) -/

/-- Doubling passes through the shift-and-add loop. -/
theorem gmulFrom_xtime (b : Byte) (n i : Nat) (r p : Byte) :
    gmulFrom b n i (xtime r) (xtime p) = xtime (gmulFrom b n i r p) := by
  induction n generalizing i r p with
  | zero => rfl
  | succ n ih => rw [gmulFrom, gmulFrom, ← ih, apply_ite xtime, xtime_xor]

theorem gmul_xtime_left (a b : Byte) : gmul (xtime a) b = xtime (gmul a b) := gmulFrom_xtime b 8 0 0 a

theorem gmul_zero (a : Byte) : gmul a 0 = 0 := rfl

theorem gmul_one (a : Byte) : gmul a 1 = a := BitVec.zero_xor

theorem gmul_two (a : Byte) : gmul a 2 = xtime a := BitVec.zero_xor

theorem zero_gmul (b : Byte) : gmul 0 b = 0 := by
  simpa using gmul_xor_left 0 0 b

/-- The loop on 1 adds up the bits of its other factor: no doubling of 1 in it is reduced. -/
theorem one_gmul (b : Byte) : gmul 1 b = b := by
  revert b
  decide

/-- A fixed right factor passes through the shift-and-add loop. -/
theorem gmul_gmulFrom (c b : Byte) (n i : Nat) (r p : Byte) :
    gmul (gmulFrom c n i r p) b = gmulFrom c n i (gmul r b) (gmul p b) := by
  induction n generalizing i r p with
  | zero => rfl
  | succ n ih => rw [gmulFrom, ih, gmulFrom, gmul_xtime_left, apply_ite (gmul · b), gmul_xor_left]

/-- A product's factor on the right may be multiplied into its first factor instead. -/
theorem gmul_right_comm (a c b : Byte) : gmul (gmul a c) b = gmul (gmul a b) c := by
  have hloop : gmul (gmul a c) b = gmulFrom c 8 0 (gmul 0 b) (gmul a b) := gmul_gmulFrom c b 8 0 0 a
  rwa [zero_gmul] at hloop

theorem gmul_comm (a b : Byte) : gmul a b = gmul b a := by
  have hright : gmul (gmul 1 a) b = gmul (gmul 1 b) a := gmul_right_comm 1 a b
  rwa [one_gmul, one_gmul] at hright

theorem gmul_assoc (a b c : Byte) : gmul (gmul a b) c = gmul a (gmul b c) := by
  calc gmul (gmul a b) c = gmul (gmul b a) c := by rw [gmul_comm a b]
    _ = gmul (gmul b c) a := gmul_right_comm b a c
    _ = gmul a (gmul b c) := gmul_comm _ _

/-! ## Blocks (40_gf_arith.md R125) -/

theorem gmulBlock_zero (b : Block) : gmulBlock b 0 = zeroBytes 16 :=
  bytes_ext fun i hi => by rw [byteAt_gmulBlock b 0 hi, gmul_zero, byteAt_zeroBytes]

theorem gmulBlock_one (b : Block) : gmulBlock b 1 = b :=
  bytes_ext fun i hi => by rw [byteAt_gmulBlock b 1 hi, gmul_one]

theorem gmulBlock_gmulBlock (b : Block) (c d : Byte) : gmulBlock (gmulBlock b c) d = gmulBlock b (gmul c d) :=
  bytes_ext fun i hi => by
    rw [byteAt_gmulBlock _ d hi, byteAt_gmulBlock b c hi, byteAt_gmulBlock b _ hi, gmul_assoc]

/-- GFMUL's completion (40_gf_arith.md R125). -/
theorem exec_gfMul (gfc : Byte) (s : State) :
    exec (.gfMul gfc) s = .next (retired .ok { s with blk := gmulBlock s.blk gfc }) := rfl

/-- GFMUL by a constant and then by its inverse restores BLK (40_gf_arith.md R124, R125). -/
theorem exec_gfMul_inverse {c d : Byte} {s t : State} (hinv : gmul c d = 1) (h : exec (.gfMul c) s = .next t) :
    ∃ u, exec (.gfMul d) t = .next u ∧ u.blk = s.blk := by
  rw [exec_gfMul] at h
  injection h with h
  subst h
  refine ⟨_, exec_gfMul d _, ?_⟩
  calc gmulBlock (gmulBlock s.blk c) d = gmulBlock s.blk (gmul c d) := gmulBlock_gmulBlock s.blk c d
    _ = s.blk := by rw [hinv, gmulBlock_one]

end Sys2Proof.Machine
end

section
/-! PROOFS. The obligations of the family 40_gf_arith.md: GFMUL. -/

namespace Sys2Proof.Machine

/-- Settles O34: BLK is `gmulBlock` of what it held; the inverse clause is associativity, byte by byte. -/
theorem gfMulMultipliesEveryByte : Obligations.GfMulMultipliesEveryByte := by
  refine ⟨fun gfc s => ⟨gmulBlock s.blk gfc, exec_gfMul gfc s, ?product, ?zero, ?one, ?two⟩,
    fun c d s t => exec_gfMul_inverse⟩
  case product => exact fun i hi => byteAt_gmulBlock s.blk gfc hi
  case zero =>
    rintro rfl
    exact gmulBlock_zero s.blk
  case one =>
    rintro rfl
    exact gmulBlock_one s.blk
  case two =>
    rintro rfl i hi
    rw [byteAt_gmulBlock s.blk 2 hi, gmul_two]

end Sys2Proof.Machine
end

section
/-! PROOFS. The shared laws of the family 41_key_schedule.md: words by bytes and by shifts, the recurrence of the key
expansion at every index, and the two completions of INIT. The expansion only ever appends, so a word once computed is
never changed; both the recurrence and the bytes the expansion depends on follow from that. -/

namespace Sys2Proof.Machine

/-! ## Words in big-endian order (00_scope.md R12, 41_key_schedule.md R142) -/

/-- A word of the key schedule by shifts. -/
theorem wordOfBytes_eq_shifts (b0 b1 b2 b3 : Byte) :
    wordOfBytes b0 b1 b2 b3 =
      (b0.setWidth 32 <<< 24) ||| (b1.setWidth 32 <<< 16) ||| (b2.setWidth 32 <<< 8) ||| b3.setWidth 32 := by
  apply BitVec.eq_of_getLsbD_eq
  intro i hi
  simp only [wordOfBytes, BitVec.getLsbD_append, BitVec.getLsbD_or, BitVec.getLsbD_shiftLeft,
    BitVec.getLsbD_setWidth]
  interval_cases i <;> simp

/-- A byte of a word by shift and truncation. -/
theorem wordByte_eq (w : Word) (k : Nat) : wordByte w k = (w >>> (8 * (3 - k))).setWidth 8 := rfl

theorem rotWord_eq_rotateLeft (w : Word) : rotWord w = w.rotateLeft 8 := by
  apply BitVec.eq_of_getLsbD_eq
  intro i hi
  simp only [rotWord, wordOfBytes, wordByte, BitVec.getLsbD_append, BitVec.getLsbD_extractLsb',
    BitVec.getLsbD_rotateLeft]
  interval_cases i <;> simp

theorem rconWord_eq_shift (j : Nat) : rconWord j = (rcon j).setWidth 32 <<< 24 := by
  rw [rconWord, wordOfBytes_eq_shifts]
  simp

/-! ## The key expansion (41_key_schedule.md R144) -/

theorem wordAt_append_left {ws vs : List Word} {i : Nat} (h : i < ws.length) : wordAt (ws ++ vs) i = wordAt ws i :=
  List.getD_append ws vs 0 i h

theorem wordAt_append_singleton (ws : List Word) (w : Word) : wordAt (ws ++ [w]) ws.length = w := by
  simp [wordAt]

theorem length_extendWords (nk n : Nat) (ws : List Word) : (extendWords nk n ws).length = ws.length + n := by
  induction n generalizing ws with
  | zero => rfl
  | succ n ih =>
    rw [extendWords, ih, List.length_append, List.length_singleton]
    omega

/-- The expansion never changes a word it already has. -/
theorem wordAt_extendWords_of_lt (nk n : Nat) {ws : List Word} {i : Nat} (h : i < ws.length) :
    wordAt (extendWords nk n ws) i = wordAt ws i := by
  induction n generalizing ws with
  | zero => rfl
  | succ n ih =>
    have hlonger : i < (ws ++ [nextWord nk ws]).length := by
      rw [List.length_append]
      omega
    rw [extendWords, ih hlonger, wordAt_append_left h]

/-- Each word that the expansion adds obeys the recurrence. -/
theorem wordAt_extendWords_recurrence {nk : Nat} (n : Nat) {ws : List Word} {i : Nat} (hpos : 0 < nk)
    (hnk : nk ≤ ws.length) (hlo : ws.length ≤ i) (hhi : i < ws.length + n) :
    wordAt (extendWords nk n ws) i = wordAt (extendWords nk n ws) (i - nk)
      ^^^ scheduleTemp nk i (wordAt (extendWords nk n ws) (i - 1)) := by
  induction n generalizing ws with
  | zero => omega
  | succ n ih =>
    have hlength : (ws ++ [nextWord nk ws]).length = ws.length + 1 := by simp
    rcases hlo.eq_or_lt with rfl | hlater
    · have hkept : ∀ j, j < ws.length → wordAt (extendWords nk (n + 1) ws) j = wordAt ws j :=
        fun j hj => wordAt_extendWords_of_lt nk (n + 1) hj
      have hnew : wordAt (extendWords nk (n + 1) ws) ws.length = nextWord nk ws := by
        rw [extendWords, wordAt_extendWords_of_lt nk n (by omega), wordAt_append_singleton]
      rw [hnew, hkept _ (by omega), hkept _ (by omega), nextWord]
    · exact ih (by omega) (by omega) (by omega)

theorem length_expandedWords (key : KeyBuffer) (ksz : Nat) :
    (expandedWords key ksz).length = 4 * (roundCount ksz + 1) := by
  rw [expandedWords, length_extendWords, List.length_map, List.length_range, roundCount]
  omega

/-- The first words are the key's (41_key_schedule.md R141). -/
theorem wordAt_expandedWords_key (key : KeyBuffer) {ksz j : Nat} (h : j < keyWordCount ksz) :
    wordAt (expandedWords key ksz) j = keyWord key j := by
  rw [expandedWords, wordAt_extendWords_of_lt _ _ (by simpa using h)]
  simp [wordAt, h]

theorem wordAt_expandedWords_recurrence (key : KeyBuffer) {ksz i : Nat} (hpos : 0 < keyWordCount ksz)
    (hlo : keyWordCount ksz ≤ i) (hhi : i < 4 * (roundCount ksz + 1)) :
    wordAt (expandedWords key ksz) i = wordAt (expandedWords key ksz) (i - keyWordCount ksz)
      ^^^ scheduleTemp (keyWordCount ksz) i (wordAt (expandedWords key ksz) (i - 1)) := by
  have hlength : ((List.range (keyWordCount ksz)).map (keyWord key)).length = keyWordCount ksz := by simp
  exact wordAt_extendWords_recurrence _ hpos hlength.ge (by omega) (by omega)

/-- The round-key store byte by byte (41_key_schedule.md R144, R145). -/
theorem byteAt_roundKeyAt_expandKey (key : KeyBuffer) (ksz : Nat) {j i : Nat} (hj : j < 15) (hi : i < 16) :
    byteAt (roundKeyAt (expandKey key ksz) j) i =
      if j ≤ roundCount ksz then wordByte (wordAt (expandedWords key ksz) (4 * j + i / 4)) (i % 4) else 0 := by
  rw [roundKeyAt_expandKey key ksz hj, apply_ite (byteAt · i), byteAt_roundKeyOf _ j hi, byteAt_zeroBytes]

/-! ## The bytes of the key that matter (41_key_schedule.md R147) -/

theorem keyWord_congr {key key' : KeyBuffer} {ksz j : Nat} (h : ∀ i, i < ksz → byteAt key i = byteAt key' i)
    (hj : j < keyWordCount ksz) : keyWord key j = keyWord key' j := by
  have hlast : 4 * j + 3 < ksz := by
    rw [keyWordCount] at hj
    omega
  rw [keyWord, keyWord, h (4 * j) (by omega), h (4 * j + 1) (by omega), h (4 * j + 2) (by omega), h (4 * j + 3) hlast]

/-- The expansion starts from the key words only, so it depends on the first `ksz` bytes only. -/
theorem expandKey_congr {key key' : KeyBuffer} {ksz : Nat} (h : ∀ i, i < ksz → byteAt key i = byteAt key' i) :
    expandKey key ksz = expandKey key' ksz := by
  have hwords : (List.range (keyWordCount ksz)).map (keyWord key) = (List.range (keyWordCount ksz)).map (keyWord key') :=
    List.map_congr_left fun j hj => keyWord_congr h (List.mem_range.mp hj)
  simp only [expandKey, expandedWords, hwords]

/-! ## The completion of INIT (41_key_schedule.md R145, R146) -/

theorem exec_init_of_valid {ksz : Nat} (h : validKeySize ksz = true) (tz : Bool) (s : State) :
    exec (.init ksz tz) s = .next (retired .ok (loadContext ksz tz s)) :=
  if_pos h

theorem exec_init_of_invalid {ksz : Nat} (h : ¬ validKeySize ksz = true) (tz : Bool) (s : State) :
    exec (.init ksz tz) s = .next (retired .invalidKeySize (clearContext s)) :=
  if_neg h

/-- What INIT loads depends on no key byte past the key size. -/
theorem loadContext_congr {key : KeyBuffer} {ksz : Nat} (tz : Bool) {s : State}
    (h : ∀ i, i < ksz → byteAt key i = byteAt s.key i) :
    loadContext ksz tz { s with key := key } = loadContext ksz tz s := by
  simp only [loadContext, expandKey_congr h]

end Sys2Proof.Machine
end

section
/-! PROOFS. The obligations of the family 41_key_schedule.md: the word operations, the key expansion, and INIT. -/

namespace Sys2Proof.Machine

/-- Settles O35: rotation and recombination hold bit by bit; the table and the examples compute. -/
theorem wordOperationsAndRoundConstants : Obligations.WordOperationsAndRoundConstants := by
  refine ⟨rotWord_eq_rotateLeft, fun w => wordOfBytes_eq_shifts _ _ _ _, rconWord_eq_shift, ?table, ?rotExample,
    ?subExample⟩
  case table => decide
  case rotExample => decide
  case subExample => decide

/-- Settles O36: the three rows are `keyWordCount` and `roundCount`, and the expansion obeys the recurrence for every
size with a key word. -/
theorem keyExpansionRecurrence : Obligations.KeyExpansionRecurrence := by
  intro key ksz nk nr hsize
  obtain ⟨hpos, rfl, rfl⟩ : 0 < keyWordCount ksz ∧ nk = keyWordCount ksz ∧ nr = roundCount ksz := by
    rcases hsize with ⟨rfl, rfl, rfl⟩ | ⟨rfl, rfl, rfl⟩ | ⟨rfl, rfl, rfl⟩ <;> decide
  refine ⟨length_expandedWords key ksz, ?keyWords, ?recurrence, ?roundKeys⟩
  case keyWords =>
    intro j hj
    rw [wordAt_expandedWords_key key hj, keyWord, wordOfBytes_eq_shifts]
  case recurrence =>
    intro i hlo hhi
    rw [wordAt_expandedWords_recurrence key hpos hlo hhi, scheduleTemp, rconWord_eq_shift]
  case roundKeys =>
    intro j i hj hi
    rw [byteAt_roundKeyAt_expandKey key ksz hj hi, wordByte_eq]

/-- Settles O37: the next state is the loaded context, retired; KSIZE and INFO compute for each size. -/
theorem initLoadsTheContext : Obligations.InitLoadsTheContext := by
  intro s ksz tz hsize
  refine ⟨_, exec_init_of_valid ((validKeySize_iff ksz).mpr hsize) tz s,
    rfl, rfl, rfl, rfl, rfl, rfl, rfl, rfl, ?ksize, ?info⟩
  case ksize => rcases hsize with rfl | rfl | rfl <;> rfl
  case info =>
    rw [infoWord_of_keyed rfl, retired_ksize, loadContext_ksize]
    rcases hsize with rfl | rfl | rfl <;> decide

/-- Settles O39: the two completions load one context, for the expansion reads the first `ksz` bytes only. -/
theorem initIgnoresKeyBytesBeyondTheSize : Obligations.InitIgnoresKeyBytesBeyondTheSize := by
  intro s key ksz tz hsize hagree
  have hvalid : validKeySize ksz = true := (validKeySize_iff ksz).mpr hsize
  refine ⟨_, ?_, exec_init_of_valid hvalid tz s, fun i _ => byteAt_zeroBytes 32 i⟩
  rw [exec_init_of_valid hvalid, loadContext_congr tz hagree]

/-- Settles O38: a size other than the three is not valid, and the context is cleared. -/
theorem initIllegalSizeDestroysTheContext : Obligations.InitIllegalSizeDestroysTheContext := by
  intro s ksz tz h16 h24 h32
  have hinvalid : ¬ validKeySize ksz = true := by
    rw [validKeySize_iff]
    exact not_or.mpr ⟨h16, not_or.mpr ⟨h24, h32⟩⟩
  exact exec_init_of_invalid hinvalid tz s

end Sys2Proof.Machine
end

section
/-! PROOFS. The shared laws of the family 42_round_primitives.md: the S-box as the affine map of the field inverse, the rows
that ShiftRows and InvShiftRows turn, the columns that the two circulants multiply, the effective round key byte by byte, and
the completion of each primitive command. -/

namespace Sys2Proof.Machine

/-! ## The S-box (42_round_primitives.md R161) -/

/-- `Aff(b)` (42_round_primitives.md R161). -/
def sboxAffine (b : Byte) : Byte :=
  b ^^^ b.rotateLeft 1 ^^^ b.rotateLeft 2 ^^^ b.rotateLeft 3 ^^^ b.rotateLeft 4 ^^^ 0x63

/-- The affine map that undoes `Aff`. -/
def sboxAffineInverse (x : Byte) : Byte := x.rotateLeft 1 ^^^ x.rotateLeft 3 ^^^ x.rotateLeft 6 ^^^ 0x05

/-- `inv(a)` of 42_round_primitives.md R161, read off the table: the byte that `Aff` sends to `SBOX[a]`. -/
def fieldInverse (a : Byte) : Byte := sboxAffineInverse (sbox a)

theorem sboxAffine_sboxAffineInverse : ∀ x : Byte, sboxAffine (sboxAffineInverse x) = x := by
  decide

theorem sbox_eq_sboxAffine_fieldInverse (a : Byte) : sbox a = sboxAffine (fieldInverse a) :=
  (sboxAffine_sboxAffineInverse (sbox a)).symm

theorem fieldInverse_zero : fieldInverse 0 = 0 := by
  decide

/-- The table, entry by entry, holds the inverses of the field. -/
theorem gmul_fieldInverse : ∀ a : Byte, a ≠ 0 → gmul a (fieldInverse a) = 1 := by
  decide

/-! ## The rows of the state matrix (42_round_primitives.md R165, R166) -/

theorem byteAt_shiftRows_matrix (b : Block) {r c : Nat} (hr : r < 4) (hc : c < 4) :
    byteAt (shiftRows b) (r + 4 * c) = byteAt b (r + 4 * ((c + r) % 4)) := by
  have hrow : (r + 4 * c) % 4 = r := by omega
  have hcol : (r + 4 * c) / 4 = c := by omega
  rw [byteAt_shiftRows b (by omega), hrow, hcol]

/-- InvShiftRows sends column `c + r` of row `r` back to column `c`. -/
theorem byteAt_invShiftRows_matrix (b : Block) {r c : Nat} (hr : r < 4) (hc : c < 4) :
    byteAt (invShiftRows b) (r + 4 * ((c + r) % 4)) = byteAt b (r + 4 * c) := by
  have hrow : (r + 4 * ((c + r) % 4)) % 4 = r := by omega
  have hcol : ((r + 4 * ((c + r) % 4)) / 4 + (4 - r)) % 4 = c := by omega
  rw [byteAt_invShiftRows b (by omega), hrow, hcol]

/-! ## The multipliers of the circulants (40_gf_arith.md R123): each is a sum of powers of two -/

theorem gmul_xor_right (a b c : Byte) : gmul a (b ^^^ c) = gmul a b ^^^ gmul a c := by
  rw [gmul_comm a, gmul_xor_left, gmul_comm b, gmul_comm c]

theorem gmul_four (x : Byte) : gmul x 4 = xtime (xtime x) := BitVec.zero_xor

theorem gmul_eight (x : Byte) : gmul x 8 = xtime (xtime (xtime x)) := BitVec.zero_xor

theorem gmul_two_eq_timesBy (x : Byte) : gmul x 2 = timesBy 2 x := gmul_two x

theorem gmul_three_eq_timesBy (x : Byte) : gmul x 3 = timesBy 3 x := by
  change gmul x (2 ^^^ 1) = xtime x ^^^ x
  rw [gmul_xor_right, gmul_two, gmul_one]

theorem gmul_nine_eq_timesBy (x : Byte) : gmul x 9 = timesBy 9 x := by
  change gmul x (8 ^^^ 1) = xtime (xtime (xtime x)) ^^^ x
  rw [gmul_xor_right, gmul_eight, gmul_one]

theorem gmul_eleven_eq_timesBy (x : Byte) : gmul x 11 = timesBy 11 x := by
  change gmul x (8 ^^^ 2 ^^^ 1) = xtime (xtime (xtime x)) ^^^ xtime x ^^^ x
  rw [gmul_xor_right, gmul_xor_right, gmul_eight, gmul_two, gmul_one]

theorem gmul_thirteen_eq_timesBy (x : Byte) : gmul x 13 = timesBy 13 x := by
  change gmul x (8 ^^^ 4 ^^^ 1) = xtime (xtime (xtime x)) ^^^ xtime (xtime x) ^^^ x
  rw [gmul_xor_right, gmul_xor_right, gmul_eight, gmul_four, gmul_one]

theorem gmul_fourteen_eq_timesBy (x : Byte) : gmul x 14 = timesBy 14 x := by
  change gmul x (8 ^^^ 4 ^^^ 2) = xtime (xtime (xtime x)) ^^^ xtime (xtime x) ^^^ xtime x
  rw [gmul_xor_right, gmul_xor_right, gmul_eight, gmul_four, gmul_two]

/-! ## The columns of the state matrix (42_round_primitives.md R167, R168) -/

section
variable (m0 m1 m2 m3 : Byte) (a : Nat → Byte)

theorem circulant_row_zero :
    circulant m0 m1 m2 m3 a 0 = gmul (a 0) m0 ^^^ gmul (a 1) m1 ^^^ gmul (a 2) m2 ^^^ gmul (a 3) m3 := rfl

theorem circulant_row_one :
    circulant m0 m1 m2 m3 a 1 = gmul (a 0) m3 ^^^ gmul (a 1) m0 ^^^ gmul (a 2) m1 ^^^ gmul (a 3) m2 := by
  simp only [circulant, Nat.reduceAdd, Nat.reduceMod]
  ac_rfl

theorem circulant_row_two :
    circulant m0 m1 m2 m3 a 2 = gmul (a 0) m2 ^^^ gmul (a 1) m3 ^^^ gmul (a 2) m0 ^^^ gmul (a 3) m1 := by
  simp only [circulant, Nat.reduceAdd, Nat.reduceMod]
  ac_rfl

theorem circulant_row_three :
    circulant m0 m1 m2 m3 a 3 = gmul (a 0) m1 ^^^ gmul (a 1) m2 ^^^ gmul (a 2) m3 ^^^ gmul (a 3) m0 := by
  simp only [circulant, Nat.reduceAdd, Nat.reduceMod]
  ac_rfl

end

theorem byteAt_mixColumns_column (b : Block) {c r : Nat} (hc : c < 4) (hr : r < 4) :
    byteAt (mixColumns b) (4 * c + r) = circulant 2 3 1 1 (fun k => byteAt b (4 * c + k)) r := by
  have hcol : (4 * c + r) / 4 = c := by omega
  have hrow : (4 * c + r) % 4 = r := by omega
  rw [byteAt_mixColumns b (by omega), hcol, hrow]
  simp only [Nat.add_comm]

theorem byteAt_invMixColumns_column (b : Block) {c r : Nat} (hc : c < 4) (hr : r < 4) :
    byteAt (invMixColumns b) (4 * c + r) = circulant 14 11 13 9 (fun k => byteAt b (4 * c + k)) r := by
  have hcol : (4 * c + r) / 4 = c := by omega
  have hrow : (4 * c + r) % 4 = r := by omega
  rw [byteAt_invMixColumns b (by omega), hcol, hrow]
  simp only [Nat.add_comm]

/-! ## The effective round key (42_round_primitives.md R169, R176; 43_cipher_core.md R191) -/

theorem byteAt_effRoundKey (rk : RoundKeys) (tweak : Block) (nr j : Nat) {i : Nat} (h : i < 16) :
    byteAt (effRoundKey rk tweak nr j) i =
      byteAt (roundKeyAt rk j) i ^^^ (if j = tweakRound nr then byteAt tweak i else 0) := by
  by_cases hj : j = tweakRound nr
  · rw [effRoundKey, if_pos hj, if_pos hj, byteAt_addRoundKey _ _ h]
  · rw [effRoundKey, if_neg hj, if_neg hj]
    exact BitVec.xor_zero.symm

theorem addRoundKey_effRoundKey_isAddEffRoundKey (rk : RoundKeys) (tweak : Block) (nr j : Nat) (b : Block) :
    IsAddEffRoundKey rk tweak (tweakRound nr) j b (addRoundKey b (effRoundKey rk tweak nr j)) := by
  intro i hi
  rw [byteAt_addRoundKey _ _ hi, byteAt_effRoundKey _ _ _ _ hi, BitVec.xor_assoc]

/-- `Nr` and `TR` of the rows of 00_scope.md R6 are those the model computes from KSIZE. -/
theorem ContextShape.rounds {s : State} {nr tr : Nat} (h : ContextShape s nr tr) :
    nr = contextRounds s ∧ tr = tweakRound (contextRounds s) := by
  rw [contextRounds]
  rcases h with ⟨hksize, rfl, rfl⟩ | ⟨hksize, rfl, rfl⟩ | ⟨hksize, rfl, rfl⟩ <;> rw [hksize] <;> decide

/-! ## The completions of the primitive commands (42_round_primitives.md R170-R176) -/

section
variable (s : State)

theorem exec_subBytes : exec .subBytes s = .next (retired .ok { s with blk := subBytes s.blk }) := rfl

theorem exec_invSubBytes : exec .invSubBytes s = .next (retired .ok { s with blk := invSubBytes s.blk }) := rfl

theorem exec_shiftRows : exec .shiftRows s = .next (retired .ok { s with blk := shiftRows s.blk }) := rfl

theorem exec_invShiftRows : exec .invShiftRows s = .next (retired .ok { s with blk := invShiftRows s.blk }) := rfl

theorem exec_mixColumns : exec .mixColumns s = .next (retired .ok { s with blk := mixColumns s.blk }) := rfl

theorem exec_invMixColumns : exec .invMixColumns s = .next (retired .ok { s with blk := invMixColumns s.blk }) := rfl

end

/-- NOT_KEYED comes before INDEX_RANGE (60_exceptions.md R274). -/
theorem exec_addRk_of_unkeyed {s : State} (h : s.keyed = false) (idx : Nat) :
    exec (.addRk idx) s = .next (retired .notKeyed s) :=
  if_pos (by rw [h]; rfl)

theorem exec_addRk_of_keyed {s : State} (h : s.keyed = true) (idx : Nat) :
    exec (.addRk idx) s = .next (if contextRounds s < idx then retired .indexRange s
      else retired .ok { s with blk := addRoundKey s.blk (effRoundKey s.rk s.tweak (contextRounds s) idx) }) := by
  have hcontext : ¬ (!s.keyed) = true := by rw [h]; decide
  exact (if_neg hcontext).trans (apply_ite Host.Outcome.next _ _ _).symm

end Sys2Proof.Machine
end

section
/-! PROOFS. The obligations of the family 42_round_primitives.md: the S-box and the seven primitive commands. -/

namespace Sys2Proof.Machine

/-- Settles O40: the inverse is the byte that the affine map sends to the table's entry. -/
theorem sboxConstruction : Obligations.SboxConstruction := by
  intro a
  refine ⟨fieldInverse a, ?inverse, sbox_eq_sboxAffine_fieldInverse a⟩
  split
  next hzero => rw [hzero, fieldInverse_zero]
  next hnonzero => exact gmul_fieldInverse a hnonzero

/-- Settles O41: BLK is replaced by its bytewise lookup. -/
theorem subBytesCommands : Obligations.SubBytesCommands := fun s =>
  ⟨⟨subBytes s.blk, exec_subBytes s, fun _ hi => byteAt_subBytes s.blk hi⟩,
    ⟨invSubBytes s.blk, exec_invSubBytes s, fun _ hi => byteAt_invSubBytes s.blk hi⟩⟩

/-- Settles O42: BLK is replaced by its shifted rows. -/
theorem shiftRowsCommands : Obligations.ShiftRowsCommands := fun s =>
  ⟨⟨shiftRows s.blk, exec_shiftRows s, fun _ _ hr hc => byteAt_shiftRows_matrix s.blk hr hc⟩,
    ⟨invShiftRows s.blk, exec_invShiftRows s, fun _ _ hr hc => byteAt_invShiftRows_matrix s.blk hr hc⟩⟩

/-- Settles O43: each byte is its row of the circulant, with the multipliers as doublings and sums. -/
theorem mixColumnsCommands : Obligations.MixColumnsCommands := by
  intro s
  refine ⟨⟨mixColumns s.blk, exec_mixColumns s, fun c hc => ?mix⟩,
    ⟨invMixColumns s.blk, exec_invMixColumns s, fun c hc => ?invMix⟩⟩
  case mix =>
    have hcolumn : ∀ r, r < 4 → byteAt (mixColumns s.blk) (4 * c + r) = _ :=
      fun r hr => byteAt_mixColumns_column s.blk hc hr
    refine ⟨(hcolumn 0 (by decide)).trans ?_, (hcolumn 1 (by decide)).trans ?_, (hcolumn 2 (by decide)).trans ?_,
      (hcolumn 3 (by decide)).trans ?_⟩
    · rw [circulant_row_zero, gmul_two_eq_timesBy, gmul_three_eq_timesBy, gmul_one, gmul_one]
    · rw [circulant_row_one, gmul_two_eq_timesBy, gmul_three_eq_timesBy, gmul_one, gmul_one]
    · rw [circulant_row_two, gmul_two_eq_timesBy, gmul_three_eq_timesBy, gmul_one, gmul_one]
    · rw [circulant_row_three, gmul_two_eq_timesBy, gmul_three_eq_timesBy, gmul_one, gmul_one]
  case invMix =>
    have hcolumn : ∀ r, r < 4 → byteAt (invMixColumns s.blk) (4 * c + r) = _ :=
      fun r hr => byteAt_invMixColumns_column s.blk hc hr
    refine ⟨(hcolumn 0 (by decide)).trans ?_, (hcolumn 1 (by decide)).trans ?_, (hcolumn 2 (by decide)).trans ?_,
      (hcolumn 3 (by decide)).trans ?_⟩
    · rw [circulant_row_zero, gmul_fourteen_eq_timesBy, gmul_eleven_eq_timesBy,
        gmul_thirteen_eq_timesBy, gmul_nine_eq_timesBy]
    · rw [circulant_row_one, gmul_fourteen_eq_timesBy, gmul_eleven_eq_timesBy,
        gmul_thirteen_eq_timesBy, gmul_nine_eq_timesBy]
    · rw [circulant_row_two, gmul_fourteen_eq_timesBy, gmul_eleven_eq_timesBy,
        gmul_thirteen_eq_timesBy, gmul_nine_eq_timesBy]
    · rw [circulant_row_three, gmul_fourteen_eq_timesBy, gmul_eleven_eq_timesBy,
        gmul_thirteen_eq_timesBy, gmul_nine_eq_timesBy]

/-- Settles O45: the errors in their order, then the effective round key of the context's `Nr` and `TR`. -/
theorem addRkAddsTheEffectiveRoundKey : Obligations.AddRkAddsTheEffectiveRoundKey := by
  refine ⟨fun s idx hkeyed => exec_addRk_of_unkeyed hkeyed idx, ?range, ?legal⟩
  case range =>
    intro s idx nr tr hkeyed hshape hidx
    obtain ⟨rfl, rfl⟩ := hshape.rounds
    rw [exec_addRk_of_keyed hkeyed, if_pos hidx]
    rfl
  case legal =>
    intro s idx nr tr hkeyed hshape hidx
    obtain ⟨rfl, rfl⟩ := hshape.rounds
    refine ⟨_, ?completion, addRoundKey_effRoundKey_isAddEffRoundKey s.rk s.tweak (contextRounds s) idx s.blk⟩
    rw [exec_addRk_of_keyed hkeyed, if_neg (Nat.not_lt.mpr hidx)]
    rfl

end Sys2Proof.Machine
end

section
/-! PROOFS. The shared laws of the family 43_cipher_core.md: the state of the two pipelines round by round, what the zero
tweak leaves of them, and the completions of ENCRYPT and DECRYPT. Encryption folds over the rounds upwards, so its state
after round `r` is the fold over `1 .. r`; decryption folds downwards, so its state after round `r` is the fold over
`Nr-1 .. r`. -/

namespace Sys2Proof.Machine

/-! ## The pipelines round by round (43_cipher_core.md R193, R195) -/

section
variable (rk : RoundKeys) (nr : Nat) (t b : Block)

/-- The state of encryption after the initial phase and the inner rounds `1 .. r`. -/
def encryptThrough (r : Nat) : Block :=
  (List.range' 1 r).foldl (fun s j => encryptRound (effRoundKey rk t nr j) s) (addRoundKey b (effRoundKey rk t nr 0))

/-- The state of decryption after the initial phase and the inner rounds `Nr-1` down to `r`. -/
def decryptDownTo (r : Nat) : Block :=
  (List.range' r (nr - r)).foldr (fun j s => decryptRound (effRoundKey rk t nr j) s)
    (addRoundKey b (effRoundKey rk t nr nr))

/-- The state of encryption after phase `r`: the initial phase is 0 and the final phase is `Nr`. -/
def encryptState (r : Nat) : Block := if r < nr then encryptThrough rk nr t b r else taesEncrypt rk nr t b

/-- The state of decryption after phase `r`: the initial phase is `Nr` and the final phase is 0. -/
def decryptState (r : Nat) : Block := if 0 < r then decryptDownTo rk nr t b r else taesDecrypt rk nr t b

theorem encryptThrough_zero : encryptThrough rk nr t b 0 = addRoundKey b (effRoundKey rk t nr 0) := rfl

theorem encryptThrough_succ (r : Nat) :
    encryptThrough rk nr t b (r + 1) = encryptRound (effRoundKey rk t nr (r + 1)) (encryptThrough rk nr t b r) := by
  rw [encryptThrough, List.range'_1_concat, List.foldl_append, Nat.add_comm 1 r]
  rfl

theorem taesEncrypt_eq_encryptThrough :
    taesEncrypt rk nr t b = encryptFinal (effRoundKey rk t nr nr) (encryptThrough rk nr t b (nr - 1)) := rfl

theorem decryptDownTo_self : decryptDownTo rk nr t b nr = addRoundKey b (effRoundKey rk t nr nr) := by
  rw [decryptDownTo, Nat.sub_self]
  rfl

theorem decryptDownTo_of_lt {r : Nat} (h : r < nr) :
    decryptDownTo rk nr t b r = decryptRound (effRoundKey rk t nr r) (decryptDownTo rk nr t b (r + 1)) := by
  have hrounds : nr - r = nr - (r + 1) + 1 := by omega
  rw [decryptDownTo, hrounds, List.range'_succ]
  rfl

theorem taesDecrypt_eq_decryptDownTo :
    taesDecrypt rk nr t b = decryptFinal (effRoundKey rk t nr 0) (decryptDownTo rk nr t b 1) := by
  rw [taesDecrypt, innerRounds, List.foldl_reverse]
  rfl

theorem encryptState_of_lt {r : Nat} (h : r < nr) : encryptState rk nr t b r = encryptThrough rk nr t b r := if_pos h

theorem encryptState_final : encryptState rk nr t b nr = taesEncrypt rk nr t b := if_neg (Nat.lt_irrefl nr)

theorem decryptState_of_pos {r : Nat} (h : 0 < r) : decryptState rk nr t b r = decryptDownTo rk nr t b r := if_pos h

theorem decryptState_final : decryptState rk nr t b 0 = taesDecrypt rk nr t b := rfl

/-! ## Each phase adds its effective round key (43_cipher_core.md R191) -/

theorem encryptState_initial_isAddEffRoundKey (hpos : 0 < nr) :
    IsAddEffRoundKey rk t (tweakRound nr) 0 b (encryptState rk nr t b 0) := by
  rw [encryptState_of_lt rk nr t b hpos, encryptThrough_zero]
  exact addRoundKey_effRoundKey_isAddEffRoundKey rk t nr 0 b

theorem encryptState_round_isAddEffRoundKey {r : Nat} (hlo : 1 ≤ r) (hhi : r < nr) :
    IsAddEffRoundKey rk t (tweakRound nr) r (mixColumns (shiftRows (subBytes (encryptState rk nr t b (r - 1)))))
      (encryptState rk nr t b r) := by
  obtain ⟨k, rfl⟩ := Nat.exists_eq_add_of_le' hlo
  rw [Nat.add_sub_cancel, encryptState_of_lt rk nr t b hhi, encryptState_of_lt rk nr t b (Nat.lt_of_succ_lt hhi),
    encryptThrough_succ]
  exact addRoundKey_effRoundKey_isAddEffRoundKey rk t nr (k + 1) _

theorem encryptState_final_isAddEffRoundKey (hpos : 0 < nr) :
    IsAddEffRoundKey rk t (tweakRound nr) nr (shiftRows (subBytes (encryptState rk nr t b (nr - 1))))
      (encryptState rk nr t b nr) := by
  rw [encryptState_of_lt rk nr t b (Nat.sub_one_lt_of_lt hpos), encryptState_final, taesEncrypt_eq_encryptThrough]
  exact addRoundKey_effRoundKey_isAddEffRoundKey rk t nr nr _

theorem decryptState_initial_isAddEffRoundKey (hpos : 0 < nr) :
    IsAddEffRoundKey rk t (tweakRound nr) nr b (decryptState rk nr t b nr) := by
  rw [decryptState_of_pos rk nr t b hpos, decryptDownTo_self]
  exact addRoundKey_effRoundKey_isAddEffRoundKey rk t nr nr b

/-- InvMixColumns comes after the round key, so the block between the two is named. -/
theorem decryptState_round_isAddEffRoundKey {r : Nat} (hlo : 1 ≤ r) (hhi : r < nr) :
    ∃ y, IsAddEffRoundKey rk t (tweakRound nr) r (invSubBytes (invShiftRows (decryptState rk nr t b (r + 1)))) y ∧
      decryptState rk nr t b r = invMixColumns y := by
  refine ⟨_, addRoundKey_effRoundKey_isAddEffRoundKey rk t nr r _, ?_⟩
  rw [decryptState_of_pos rk nr t b hlo, decryptState_of_pos rk nr t b r.succ_pos, decryptDownTo_of_lt rk nr t b hhi,
    decryptRound]

theorem decryptState_final_isAddEffRoundKey :
    IsAddEffRoundKey rk t (tweakRound nr) 0 (invSubBytes (invShiftRows (decryptState rk nr t b 1)))
      (decryptState rk nr t b 0) := by
  rw [decryptState_of_pos rk nr t b Nat.one_pos, decryptState_final, taesDecrypt_eq_decryptDownTo]
  exact addRoundKey_effRoundKey_isAddEffRoundKey rk t nr 0 _

/-! ## The zero tweak (43_cipher_core.md R197) -/

theorem effRoundKey_zeroTweak (j : Nat) : effRoundKey rk (zeroBytes 16) nr j = roundKeyAt rk j := by
  rw [effRoundKey, addRoundKey_zero, ite_self]

theorem taesEncrypt_zeroTweak : taesEncrypt rk nr (zeroBytes 16) b = plainAesEncrypt rk nr b := by
  simp only [taesEncrypt, effRoundKey_zeroTweak]
  rfl

theorem taesDecrypt_zeroTweak : taesDecrypt rk nr (zeroBytes 16) b = plainAesDecrypt rk nr b := by
  simp only [taesDecrypt, effRoundKey_zeroTweak]
  rfl

end

/-! ## The completions of ENCRYPT and DECRYPT (43_cipher_core.md R192, R194) -/

theorem contextRounds_pos (s : State) : 0 < contextRounds s := Nat.succ_pos _

section
variable {s : State}

theorem exec_encrypt_of_unkeyed (h : s.keyed = false) : exec .encrypt s = .next (retired .notKeyed s) :=
  if_neg (Bool.eq_false_iff.mp h)

theorem exec_encrypt_of_keyed (h : s.keyed = true) : exec .encrypt s =
    .next (retired .ok { s with blk := taesEncrypt s.rk (contextRounds s) s.tweak s.blk }) :=
  if_pos h

theorem exec_decrypt_of_unkeyed (h : s.keyed = false) : exec .decrypt s = .next (retired .notKeyed s) :=
  if_neg (Bool.eq_false_iff.mp h)

theorem exec_decrypt_of_keyed (h : s.keyed = true) : exec .decrypt s =
    .next (retired .ok { s with blk := taesDecrypt s.rk (contextRounds s) s.tweak s.blk }) :=
  if_pos h

end

end Sys2Proof.Machine
end

section
/-! PROOFS. The obligations of the family 43_cipher_core.md: ENCRYPT, DECRYPT, and the cipher without a tweak. -/

namespace Sys2Proof.Machine

/-- Settles O46: the states are those of the upward fold, and the last is what ENCRYPT leaves in BLK. -/
theorem encryptRunsThePipeline : Obligations.EncryptRunsThePipeline := by
  refine ⟨fun s hkeyed => exec_encrypt_of_unkeyed hkeyed, ?_⟩
  intro s nr tr hkeyed hshape
  obtain ⟨rfl, rfl⟩ := hshape.rounds
  have hpos : 0 < contextRounds s := contextRounds_pos s
  refine ⟨encryptState s.rk (contextRounds s) s.tweak s.blk, encryptState_initial_isAddEffRoundKey _ _ _ _ hpos,
    fun r hlo hhi => encryptState_round_isAddEffRoundKey _ _ _ _ hlo hhi,
    encryptState_final_isAddEffRoundKey _ _ _ _ hpos, ?_⟩
  rw [encryptState_final]
  exact exec_encrypt_of_keyed hkeyed

/-- Settles O47: the states are those of the downward fold, and the last is what DECRYPT leaves in BLK. -/
theorem decryptRunsTheInversePipeline : Obligations.DecryptRunsTheInversePipeline := by
  refine ⟨fun s hkeyed => exec_decrypt_of_unkeyed hkeyed, ?_⟩
  intro s nr tr hkeyed hshape
  obtain ⟨rfl, rfl⟩ := hshape.rounds
  refine ⟨decryptState s.rk (contextRounds s) s.tweak s.blk,
    decryptState_initial_isAddEffRoundKey _ _ _ _ (contextRounds_pos s),
    fun r hlo hhi => decryptState_round_isAddEffRoundKey _ _ _ _ hlo hhi,
    decryptState_final_isAddEffRoundKey _ _ _ _, ?_⟩
  rw [decryptState_final]
  exact exec_decrypt_of_keyed hkeyed

/-- Settles O50: the zero tweak is neutral in every round key, so the pipelines are the plain ones; the known answer
computes. -/
theorem zeroTweakIsAes : Obligations.ZeroTweakIsAes := by
  refine ⟨fun rk nr j => effRoundKey_zeroTweak rk nr j,
    fun rk nr b => ⟨taesEncrypt_zeroTweak rk nr b, taesDecrypt_zeroTweak rk nr b⟩, ?knownAnswer⟩
  case knownAnswer => decide +kernel

end Sys2Proof.Machine
end

section
/-! PROOFS. The shared laws of the family 44_context_ops.md: a number cut into bytes, the number of a tweak and its
increment, and the completions of the context commands. -/

namespace Sys2Proof.Machine

/-! ## The tweak as a number (44_context_ops.md R222) -/

/-- The low `n` bytes of a number, weighted by their places, add up to it modulo `2^(8n)`. -/
theorem sum_bytes_eq_mod (v n : Nat) :
    ((List.range n).map fun i => v / 2 ^ (8 * i) % 2 ^ 8 * 2 ^ (8 * i)).sum = v % 2 ^ (8 * n) := by
  induction n with
  | zero => simp [Nat.mod_one]
  | succ n ih =>
    rw [List.sum_range_succ, ih, Nat.mul_succ, Nat.pow_add, Nat.mod_mul, Nat.mul_comm (2 ^ (8 * n))]

theorem tweakNumber_eq_sum (t : Block) :
    tweakNumber t = ((List.range 16).map fun i => (byteAt t i).toNat * 2 ^ (8 * i)).sum := rfl

theorem tweakNumber_tweakOfNumber (v : Nat) : tweakNumber (tweakOfNumber v) = v % 2 ^ 128 := by
  have hbyte : ∀ i ∈ List.range 16,
      (byteAt (tweakOfNumber v) i).toNat * 2 ^ (8 * i) = v / 2 ^ (8 * i) % 2 ^ 8 * 2 ^ (8 * i) := by
    intro i hi
    rw [byteAt_tweakOfNumber v (List.mem_range.mp hi), BitVec.toNat_ofNat]
  rw [tweakNumber_eq_sum, List.map_congr_left hbyte, sum_bytes_eq_mod]

theorem tweakNumber_incrementTweak (t : Block) :
    tweakNumber (incrementTweak t) = (tweakNumber t + 1) % 2 ^ 128 := by
  rw [incrementTweak, tweakNumber_tweakOfNumber, Nat.mod_mod]

/-! ## The completions -/

section
variable (s : State)

theorem exec_nop : exec .nop s = .next (retired .ok s) := rfl

theorem exec_cleanup : exec .cleanup s = .next (retired .ok { clearContext s with blk := zeroBytes 16 }) := rfl

theorem exec_tweakInc :
    exec .tweakInc s = .next (retired .ok { s with tweak := incrementTweak s.tweak }) := rfl

theorem exec_reserved67 (odd : Bool) : exec (.reserved67 odd) s = .next (retired .illegalCmd s) := rfl

end

end Sys2Proof.Machine
end

section
/-! PROOFS. The obligations of the family 44_context_ops.md: NOP, CLEANUP, TWEAK_INC and the reserved opcodes. -/

namespace Sys2Proof.Machine

/-- Settles O54: the tweak of the next state is `incrementTweak` of the old one, whose number is one more modulo
`2^128`. -/
theorem tweakIncAddsOne : Obligations.TweakIncAddsOne := by
  intro s
  refine ⟨incrementTweak s.tweak, exec_tweakInc s, ?number⟩
  case number =>
    rw [← tweakNumber_eq_sum, ← tweakNumber_eq_sum]
    exact tweakNumber_incrementTweak s.tweak

/-- Settles O53: each completion is a retired state; CLEANUP's is of the cleared context and a zero BLK. -/
theorem nopCleanupAndReserved : Obligations.NopCleanupAndReserved :=
  ⟨exec_nop, exec_cleanup, exec_reserved67⟩

end Sys2Proof.Machine
end

section
/-! PROOFS. The shared laws of the family 48_host_mode.md: the precondition of the mode functions and of the host
procedures. -/

namespace Sys2Proof.Machine

/-! ## An input of at most one block (48_host_mode.md R241) -/

section
variable {buf : List Byte}

theorem modeEncrypt_of_length_le (rk : RoundKeys) (nr : Nat) (t0 : Block) (hshort : buf.length ≤ 16) :
    modeEncrypt rk nr buf t0 = .error .modeLength := if_pos hshort

theorem modeDecrypt_of_length_le (rk : RoundKeys) (nr : Nat) (t0 : Block) (hshort : buf.length ≤ 16) :
    modeDecrypt rk nr buf t0 = .error .modeLength := if_pos hshort

theorem modeEncryptHost_of_length_le (s : State) (hshort : buf.length ≤ 16) :
    modeEncryptHost buf s = (.error .modeLength, s) := if_pos hshort

theorem modeDecryptHost_of_length_le (s : State) (hshort : buf.length ≤ 16) :
    modeDecryptHost buf s = (.error .modeLength, s) := if_pos hshort

end

end Sys2Proof.Machine
end

section
/-! PROOFS. The obligations of the family 48_host_mode.md: the mode functions and the host procedures. -/

namespace Sys2Proof.Machine

/-- Settles O55: each of the four tests the length before anything else, so a short input takes its first branch, where
no command is issued. -/
theorem modeRejectsShortInput : Obligations.ModeRejectsShortInput := by
  intro rk nr buf t0 s hshort
  exact ⟨modeEncrypt_of_length_le rk nr t0 hshort, modeDecrypt_of_length_le rk nr t0 hshort,
    modeEncryptHost_of_length_le s hshort, modeDecryptHost_of_length_le s hshort⟩

end Sys2Proof.Machine
end

section
/-! PROOFS. The shared laws of the family 60_exceptions.md: the first phase of an accepted command, the result code of each
command, and what a failed command leaves behind. -/

namespace Sys2Proof.Machine

/-! ## Acceptance (60_exceptions.md R276) -/

theorem head?_phases (w : Word) (s : State) :
    (phases (decode w) s.keyed s.ksize.toNat).head? = some (firstPhase w s) := by
  have hne : phases (decode w) s.keyed s.ksize.toNat ≠ [] := List.ne_nil_of_mem (firstPhase_mem w s)
  rw [firstPhase, List.headD_eq_head?_getD, List.head?_eq_some_head hne, Option.getD_some]

/-! ## Result codes (60_exceptions.md R270, R274) -/

/-- The result code of a command: the first error that applies, or OK (60_exceptions.md R274). -/
def resultCode (i : Instr) (s : State) : ErrCode :=
  match i with
  | .reserved67 _ => .illegalCmd
  | .init ksz _ => if validKeySize ksz then .ok else .invalidKeySize
  | .encrypt | .decrypt => if s.keyed then .ok else .notKeyed
  | .addRk idx => if s.keyed = false then .notKeyed else if contextRounds s < idx then .indexRange else .ok
  | .nop | .cleanup | .tweakInc | .gfMul _ => .ok
  | .subBytes | .invSubBytes | .shiftRows | .invShiftRows | .mixColumns | .invMixColumns => .ok

/-- What a failed command leaves behind, its result apart: INIT destroys the context, every other command changes nothing
(60_exceptions.md R273). -/
def failedState (i : Instr) (s : State) : State :=
  match i with
  | .init _ _ => clearContext s
  | _ => s

theorem failedState_of_ne_init {i : Instr} (h : ∀ ksz tz, i ≠ .init ksz tz) (s : State) : failedState i s = s := by
  cases i with
  | init ksz tz => exact absurd rfl (h ksz tz)
  | _ => rfl

/-- Every command retires with its result code, and a failed one from `failedState`. -/
theorem exec_resultCode (i : Instr) (s : State) :
    ∃ u, exec i s = .next (retired (resultCode i s) u) ∧ (resultCode i s = .ok ∨ u = failedState i s) := by
  cases i with
  | init ksz tz =>
    by_cases h : validKeySize ksz = true
    · rw [resultCode, if_pos h]
      exact ⟨_, exec_init_of_valid h tz s, .inl rfl⟩
    · rw [resultCode, if_neg h]
      exact ⟨_, exec_init_of_invalid h tz s, .inr rfl⟩
  | encrypt =>
    cases h : s.keyed with
    | false => exact ⟨s, by rw [exec_encrypt_of_unkeyed h, resultCode, h]; rfl, .inr rfl⟩
    | true => exact ⟨_, by rw [exec_encrypt_of_keyed h, resultCode, h]; rfl, .inl (if_pos h)⟩
  | decrypt =>
    cases h : s.keyed with
    | false => exact ⟨s, by rw [exec_decrypt_of_unkeyed h, resultCode, h]; rfl, .inr rfl⟩
    | true => exact ⟨_, by rw [exec_decrypt_of_keyed h, resultCode, h]; rfl, .inl (if_pos h)⟩
  | addRk idx =>
    cases h : s.keyed with
    | false =>
      rw [resultCode, if_pos h]
      exact ⟨s, exec_addRk_of_unkeyed h idx, .inr rfl⟩
    | true =>
      rw [resultCode, if_neg (by simp [h]), exec_addRk_of_keyed h]
      by_cases hidx : contextRounds s < idx
      · rw [if_pos hidx, if_pos hidx]
        exact ⟨s, rfl, .inr rfl⟩
      · rw [if_neg hidx, if_neg hidx]
        exact ⟨_, rfl, .inl rfl⟩
  | reserved67 odd => exact ⟨s, exec_reserved67 s odd, .inr rfl⟩
  | nop => exact ⟨_, exec_nop s, .inl rfl⟩
  | cleanup => exact ⟨_, exec_cleanup s, .inl rfl⟩
  | tweakInc => exact ⟨_, exec_tweakInc s, .inl rfl⟩
  | subBytes => exact ⟨_, exec_subBytes s, .inl rfl⟩
  | invSubBytes => exact ⟨_, exec_invSubBytes s, .inl rfl⟩
  | shiftRows => exact ⟨_, exec_shiftRows s, .inl rfl⟩
  | invShiftRows => exact ⟨_, exec_invShiftRows s, .inl rfl⟩
  | mixColumns => exact ⟨_, exec_mixColumns s, .inl rfl⟩
  | invMixColumns => exact ⟨_, exec_invMixColumns s, .inl rfl⟩
  | gfMul gfc => exact ⟨_, exec_gfMul gfc s, .inl rfl⟩

/-- A command that completes with ERR not 0 has retired from `failedState`. -/
theorem exec_failed {i : Instr} {s t : State} (h : exec i s = .next t) (herr : t.err ≠ 0) :
    t = retired (resultCode i s) (failedState i s) := by
  obtain ⟨u, he, hu⟩ := exec_resultCode i s
  rw [he] at h
  injection h with h
  subst h
  rcases hu with hok | rfl
  · exact absurd (congrArg errNumber hok) herr
  · rfl

end Sys2Proof.Machine
end

section
/-! PROOFS. The obligations of the family 60_exceptions.md: acceptance and completion, the result codes, and failed
commands. -/

namespace Sys2Proof.Machine

/-- Settles O8: the accepted write is `accept`, whose phase is the head of the command's phases; the completion is `exec`,
which retires and leaves the bus alone. -/
theorem acceptanceAndCompletion : Obligations.AcceptanceAndCompletion := by
  refine ⟨?acceptance, ?completion⟩
  case acceptance =>
    intro s rest d hp hidle
    refine ⟨firstPhase (d.setWidth 32) s, head?_phases _ s, ?_⟩
    rw [step_writeEvent (by decide) (by decide) hp, busWrite_answered_of_taken (by simp [hidle])]
    rfl
  case completion =>
    intro s rest hp hbusy
    have hstep : step s = exec (decode s.ctrl) (withPending rest s) :=
      (step_cons hp).trans (completeCommand_busy (s := withPending rest s) hbusy)
    obtain ⟨code, u, he, hctrl, hwerr, hpending, hresponses, _⟩ := exec_retires (decode s.ctrl) (withPending rest s)
    exact ⟨retired code u, hstep.trans he, he, rfl, rfl, hctrl, hwerr, hpending, hresponses⟩

/-- Settles O9: every command retires with its `resultCode`, whose number is the one stated, command by command. -/
theorem everyCommandCompletesWithItsCode : Obligations.EveryCommandCompletesWithItsCode := by
  intro i s
  obtain ⟨u, he, _⟩ := exec_resultCode i s
  refine ⟨_, he, rfl, rfl, ?code⟩
  case code =>
    rw [retired_err]
    cases i with
    | init ksz tz =>
      simp only [resultCode, validKeySize_iff, apply_ite errNumber]
      rfl
    | encrypt => exact apply_ite errNumber _ _ _
    | decrypt => exact apply_ite errNumber _ _ _
    | addRk idx =>
      simp only [resultCode, apply_ite errNumber]
      rfl
    | _ => rfl

/-- Settles O10: a failed command retires from `failedState`, which is the state before, or after an INIT the cleared
context. -/
theorem failedCommandHasNoOutput : Obligations.FailedCommandHasNoOutput := by
  intro i s t h herr
  have ht : t = retired (resultCode i s) (failedState i s) := exec_failed h herr
  refine ⟨?other, ?init⟩
  case other =>
    intro hinit
    rw [failedState_of_ne_init hinit] at ht
    subst ht
    rfl
  case init =>
    rintro ksz tz rfl
    subst ht
    exact ⟨rfl, rfl, rfl, rfl, rfl, rfl⟩

end Sys2Proof.Machine
end

section
/-! PROOFS. The shared laws of the round trip of 30_encoding.md: every command is encoded by one assembled word, and
the row of the opcode map at its opcode reads its operands back. -/

namespace Sys2Proof

/-- Every command is encoded by an assembled word with its opcode in CMD. -/
theorem encode_eq_assemble (i : Instr) : ∃ gfc tz ksz idx, encode i = assemble gfc tz ksz idx (opcode i) := by
  cases i <;> exact ⟨_, _, _, _, rfl⟩

theorem fieldCmd_encode (i : Instr) : fieldCmd (encode i) = opcode i := by
  obtain ⟨gfc, tz, ksz, idx, h⟩ := encode_eq_assemble i
  rw [h, fieldCmd_assemble]

/-- The mask 0x00FE0000 is bits 23:17, the reserved ones (30_encoding.md R104). -/
theorem and_reservedMask_eq_zero {w : Word} (h : w.extractLsb' 17 7 = 0) : w &&& 0x00FE0000#32 = 0 := by
  have hmask : 0x00FE0000#32 = (BitVec.allOnes 7).setWidth 32 <<< 17 := by decide
  apply BitVec.eq_of_getLsbD_eq
  intro i hi
  rw [BitVec.getLsbD_and, hmask, BitVec.getLsbD_shiftLeft, BitVec.getLsbD_setWidth, BitVec.getLsbD_allOnes]
  by_cases hfield : 17 ≤ i ∧ i < 24
  · have hbit : (w.extractLsb' 17 7).getLsbD (i - 17) = w.getLsbD i := by
      rw [BitVec.getLsbD_extractLsb', show 17 + (i - 17) = i by omega]
      simp; omega
    rw [← hbit, h]
    simp
  · have hout : i < 17 ∨ ¬ i - 17 < 7 := by omega
    rcases hout with hlow | hhigh
    · simp [hlow]
    · simp [hhigh]

theorem reserved_encode (i : Instr) : encode i &&& 0x00FE0000#32 = 0 := by
  obtain ⟨gfc, tz, ksz, idx, h⟩ := encode_eq_assemble i
  exact and_reservedMask_eq_zero (h ▸ reserved_assemble gfc tz ksz idx (opcode i))

/-- The opcode selects the row of the opcode map, and only INIT, ADDRK and GFMUL have operands to read back. -/
theorem decode_encode {i : Instr} (h : i.wellFormed = true) : decode (encode i) = i := by
  rw [decode_eq_opcodeMap, fieldCmd_encode]
  cases i with
  | init ksz tz =>
    have hfit : ksz < 256 := of_decide_eq_true h
    exact congrArg₂ Instr.init (fieldKsz_assemble _ _ _ _ _ hfit) (fieldTz_assemble _ _ _ _ _)
  | addRk idx =>
    have hfit : idx < 16 := of_decide_eq_true h
    exact congrArg Instr.addRk (fieldIdx_assemble _ _ _ _ _ hfit)
  | gfMul gfc => exact congrArg Instr.gfMul (fieldGfc_assemble _ _ _ _ _)
  | reserved67 odd => cases odd <;> rfl
  | _ => rfl

end Sys2Proof
end

section
/-! PROOFS. The obligations of the round trip of 30_encoding.md. -/

namespace Sys2Proof.Machine

/-- Settles O1: the assembled word keeps every field, and the decoder is the opcode map over them. -/
theorem decodeInvertsEncode : Obligations.DecodeInvertsEncode :=
  fun i h => ⟨decode_encode h, fieldCmd_encode i, reserved_encode i⟩

/-- Settles O4: each word is assembled and decoded by evaluation. -/
theorem workedEncodings : Obligations.WorkedEncodings := by
  unfold Obligations.WorkedEncodings
  decide

end Sys2Proof.Machine
end

section
/-! PROOFS. The shared laws of the whole machine: the three things a write in the window can do, what one event does
to the block, which commands reach which cells, and which steps carry KEY and RK along unread. -/

namespace Sys2Proof.Machine

/-! ## Writes in the window (20_memory.md R73, 10_state.md R36) -/

/-- A write to any register but CTRL reaches WERR and the byte arrays only. -/
theorem writeReg_of_ne_ctrl {r : Reg} (h : r ≠ .ctrl) (v : Word) (s : State) :
    ∃ werr key tweak blk, writeReg r v s = { s with werr := werr, key := key, tweak := tweak, blk := blk } := by
  cases r with
  | ctrl => exact absurd rfl h
  | _ => exact ⟨_, _, _, _, rfl⟩

/-- Of the registers whose write BUSY = 1 does not drop, STATUS alone has anything to write, and that is WERR. -/
theorem writeReg_of_not_dropped {r : Reg} (h : r.writeDroppedWhileBusy = false) (v : Word) (s : State) :
    ∃ werr, writeReg r v s = { s with werr := werr } := by
  cases r with
  | status => exact ⟨_, rfl⟩
  | id => exact ⟨s.werr, rfl⟩
  | info => exact ⟨s.werr, rfl⟩
  | reserved => exact ⟨s.werr, rfl⟩
  | ctrl => cases h
  | key j => cases h
  | tweak j => cases h
  | blk j => cases h

/-- While BUSY = 1 a write reaches WERR only. -/
theorem busWrite_of_busy {s : State} (hb : s.busy = true) (off : Nat) (v : Word) :
    ∃ werr, busWrite off v s = respond .written { s with werr := werr } := by
  rcases busWrite_cases off v s with ⟨_, _, h⟩ | ⟨htaken, h⟩
  · exact ⟨_, h⟩
  · obtain ⟨werr, hw⟩ := writeReg_of_not_dropped (by simpa [hb] using htaken) v s
    exact ⟨werr, by rw [h, hw]⟩

/-- A write is an acceptance, a write of an idle block's arrays or of WERR, or a write while BUSY = 1. -/
theorem busWrite_effects (off : Nat) (v : Word) (s : State) :
    (s.busy = false ∧ busWrite off v s = respond .written (accept v s)) ∨
    (s.busy = false ∧ ∃ werr key tweak blk,
      busWrite off v s = respond .written { s with werr := werr, key := key, tweak := tweak, blk := blk }) ∨
    (s.busy = true ∧ ∃ werr, busWrite off v s = respond .written { s with werr := werr }) := by
  rcases Bool.eq_false_or_eq_true s.busy with hb | hb
  · exact .inr (.inr ⟨hb, busWrite_of_busy hb off v⟩)
  · have htaken : busWrite off v s = respond .written (writeReg (regAt off) v s) :=
      busWrite_of_taken (by simp [hb]) v
    by_cases hctrl : regAt off = .ctrl
    · exact .inl ⟨hb, by rw [htaken, hctrl]; rfl⟩
    · obtain ⟨werr, key, tweak, blk, hw⟩ := writeReg_of_ne_ctrl hctrl v s
      exact .inr (.inl ⟨hb, werr, key, tweak, blk, by rw [htaken, hw]⟩)

/-! ## Steps -/

/-- What a step does to the block, with the walk told apart from nothing at all: a 32-bit write of the window, nothing
at all, a walk to another phase of the running command, a completion, or a reset. -/
theorem step_inversion {s t : State} (h : step s = .next t) :
    (∃ off d rest, s.pending = writeEvent off d :: rest ∧ off < 0x100 ∧ off % 4 = 0 ∧
      t = busWrite off (d.setWidth 32) (withPending rest s)) ∨
    (∃ rest rs n, t = { s with pending := rest, responses := rs, draws := n }) ∨
    (∃ w ph next rest, s.seq = .run w ph ∧ next ∈ phases (decode w) s.keyed s.ksize.toNat ∧
      t = { s with seq := .run w next, pending := rest }) ∨
    (∃ i, CompletesNext s i ∧ exec i (withPending t.pending s) = .next t) ∨
    (∃ rest, s.pending = .reset none :: rest ∧ t = resetBlock (withPending rest s)) := by
  rcases step_cases h with ⟨a, rest, hp, ht⟩ | ⟨rest, _, ht⟩ | ⟨rest, hturn, hb, he⟩ | ⟨rest, _, _, ht⟩ | hreset
  · rcases busAccess_write_or_unchanged a (withPending rest s) with ⟨off, d, rfl, hoff, ha, hw⟩ | ⟨rs, n, hu⟩
    · exact .inl ⟨off, d, rest, hp, hoff, ha, ht.trans hw⟩
    · exact .inr (.inl ⟨rest, rs, n, ht.trans hu⟩)
  · rcases advance_cases (withPending rest s) with hu | ⟨w, ph, next, hseq, hnext, hw⟩
    · exact .inr (.inl ⟨rest, s.responses, s.draws, ht.trans hu⟩)
    · exact .inr (.inr (.inl ⟨w, ph, next, rest, hseq, mem_of_phaseAfter hnext, ht.trans hw⟩))
  · have hrest : t.pending = rest := exec_pending he
    exact .inr (.inr (.inr (.inl ⟨_, completesNext_of_blockTurn hturn hb, hrest ▸ he⟩)))
  · exact .inr (.inl ⟨rest, s.responses, s.draws, ht⟩)
  · exact .inr (.inr (.inr (.inr hreset)))

/-! ## The cells of the commands (10_state.md section 6) -/

/-- A command that changes a cell of the context is an INIT or a CLEANUP. -/
theorem exec_changes_context {i : Instr} {s t : State} (h : exec i s = .next t)
    (hne : t.key ≠ s.key ∨ t.rk ≠ s.rk ∨ t.ksize ≠ s.ksize ∨ t.keyed ≠ s.keyed) :
    (∃ ksz tz, i = .init ksz tz) ∨ i = .cleanup := by
  by_contra hnot
  obtain ⟨hinit, hcleanup⟩ := not_or.mp hnot
  obtain ⟨code, tweak, blk, he⟩ := exec_keeps_context (by simpa using hinit) hcleanup s
  rw [he] at h
  injection h with h
  subst h
  simp at hne

/-! ## The round keys are an expansion (10_state.md R43, R47) -/

theorem roundKeyInv_congr {s t : State} (hkeyed : t.keyed = s.keyed) (hksize : t.ksize = s.ksize)
    (hrk : t.rk = s.rk) : RoundKeyInv t ↔ RoundKeyInv s := by
  rw [RoundKeyInv, RoundKeyInv, hkeyed, hksize, hrk]

/-- A legal size fits the six bits of KSIZE. -/
theorem toNat_ksize_of_valid {ksz : Nat} (h : validKeySize ksz = true) : (BitVec.ofNat 6 ksz).toNat = ksz := by
  rcases (validKeySize_iff ksz).mp h with rfl | rfl | rfl <;> rfl

theorem exec_roundKeyInv {i : Instr} {s t : State} (h : exec i s = .next t) (hs : RoundKeyInv s) : RoundKeyInv t := by
  by_cases hinit : ∃ ksz tz, i = .init ksz tz
  · obtain ⟨ksz, tz, rfl⟩ := hinit
    by_cases hsize : validKeySize ksz = true
    · rw [exec_init_of_valid hsize] at h
      injection h with h
      subst h
      refine ⟨s.key, ?_⟩
      rw [retired_rk, retired_ksize, loadContext_rk, loadContext_ksize, toNat_ksize_of_valid hsize]
    · rw [exec_init_of_invalid hsize] at h
      injection h with h
      exact h ▸ rfl
  by_cases hcleanup : i = .cleanup
  · subst hcleanup
    injection h with h
    exact h ▸ rfl
  · obtain ⟨code, tweak, blk, he⟩ := exec_keeps_context (by simpa using hinit) hcleanup s
    rw [he] at h
    injection h with h
    exact h ▸ (roundKeyInv_congr rfl rfl rfl).mpr hs

theorem step_roundKeyInv {s t : State} (h : step s = .next t) (hs : RoundKeyInv s) : RoundKeyInv t := by
  rcases step_inversion h with ⟨off, d, rest, _, _, _, rfl⟩ | ⟨_, _, _, rfl⟩ | ⟨_, _, _, _, _, _, rfl⟩ | ⟨i, _, he⟩
    | ⟨rest, _, rfl⟩
  · rcases busWrite_effects off (d.setWidth 32) (withPending rest s) with
      ⟨_, hw⟩ | ⟨_, _, _, _, _, hw⟩ | ⟨_, _, hw⟩ <;> exact hw ▸ (roundKeyInv_congr rfl rfl rfl).mpr hs
  · exact (roundKeyInv_congr rfl rfl rfl).mpr hs
  · exact (roundKeyInv_congr rfl rfl rfl).mpr hs
  · exact exec_roundKeyInv he ((roundKeyInv_congr rfl rfl rfl).mpr hs)
  · exact rfl

/-! ## SEQ, BUSY and ERR (10_state.md R37, R44, R47) -/

theorem sequencerInv_congr {s t : State} (hseq : t.seq = s.seq) (hbusy : t.busy = s.busy) (hctrl : t.ctrl = s.ctrl)
    (hkeyed : t.keyed = s.keyed) (hksize : t.ksize = s.ksize) : SequencerInv t ↔ SequencerInv s := by
  rw [SequencerInv, SequencerInv, hseq, hbusy, hctrl, hkeyed, hksize]

theorem step_sequencerInv {s t : State} (h : step s = .next t) (hs : SequencerInv s) : SequencerInv t := by
  rcases step_inversion h with ⟨off, d, rest, _, _, _, rfl⟩ | ⟨_, _, _, rfl⟩ | ⟨w, ph, next, rest, hseq, hnext, rfl⟩
    | ⟨i, _, he⟩ | ⟨rest, _, rfl⟩
  · rcases busWrite_effects off (d.setWidth 32) (withPending rest s) with
      ⟨_, hw⟩ | ⟨_, _, _, _, _, hw⟩ | ⟨_, _, hw⟩
    · exact hw ▸ ⟨rfl, rfl, firstPhase_mem _ (withPending rest s)⟩
    · exact hw ▸ (sequencerInv_congr rfl rfl rfl rfl rfl).mpr hs
    · exact hw ▸ (sequencerInv_congr rfl rfl rfl rfl rfl).mpr hs
  · exact (sequencerInv_congr rfl rfl rfl rfl rfl).mpr hs
  · rw [SequencerInv, hseq] at hs
    obtain ⟨hbusy, hctrl, _⟩ := hs
    exact ⟨hbusy, hctrl, hnext⟩
  · obtain ⟨code, u, rfl, _⟩ := exec_next he
    exact rfl
  · exact rfl

theorem errInv_congr {s t : State} (herr : t.err = s.err) (hbusy : t.busy = s.busy) : ErrInv t ↔ ErrInv s := by
  rw [ErrInv, ErrInv, herr, hbusy]

theorem errInv_of_zero {s : State} (h : s.err = 0) : ErrInv s := ⟨h ▸ Nat.zero_le 4, fun _ => h⟩

theorem step_errInv {s t : State} (h : step s = .next t) (hs : ErrInv s) : ErrInv t := by
  rcases step_inversion h with ⟨off, d, rest, _, _, _, rfl⟩ | ⟨_, _, _, rfl⟩ | ⟨_, _, _, _, _, _, rfl⟩ | ⟨i, _, he⟩
    | ⟨rest, _, rfl⟩
  · rcases busWrite_effects off (d.setWidth 32) (withPending rest s) with
      ⟨_, hw⟩ | ⟨_, _, _, _, _, hw⟩ | ⟨_, _, hw⟩
    · exact hw ▸ errInv_of_zero rfl
    · exact hw ▸ (errInv_congr rfl rfl).mpr hs
    · exact hw ▸ (errInv_congr rfl rfl).mpr hs
  · exact (errInv_congr rfl rfl).mpr hs
  · exact (errInv_congr rfl rfl).mpr hs
  · obtain ⟨code, u, rfl, _⟩ := exec_next he
    exact ⟨errNumber_le code, fun hbusy => absurd hbusy Bool.false_ne_true⟩
  · exact errInv_of_zero rfl

theorem inv_reset : Inv State.reset := ⟨keySizeInv_reset, rfl, rfl, errInv_of_zero rfl⟩

/-! ## Steps that carry KEY and RK along unread (10_state.md R40, R43) -/

/-- `s` with another key buffer and other round keys. -/
def withKeys (key : KeyBuffer) (rk : RoundKeys) (s : State) : State := { s with key := key, rk := rk }

/-- `op` answers `t` at `s` without reading KEY and RK: whatever the two hold, the answer is `t` but for them, and
what each of them holds after depends on what it held alone. -/
def CarriesKeys (op : State → Result) (s t : State) : Prop :=
  ∃ (f : KeyBuffer → KeyBuffer) (g : RoundKeys → RoundKeys),
    ∀ key rk, op (withKeys key rk s) = .next (withKeys (f key) (g rk) t)

section
variable {op : State → Result} {s t : State}

theorem CarriesKeys.withKey (h : CarriesKeys op s t) (hop : op s = .next t) (key : KeyBuffer) :
    ∃ key', op { s with key := key } = .next { t with key := key' } := by
  obtain ⟨f, g, hkeys⟩ := h
  have hrk : t.rk = g s.rk := by
    have hsame : op s = .next (withKeys (f s.key) (g s.rk) t) := hkeys s.key s.rk
    rw [hop] at hsame
    injection hsame with hsame
    exact congrArg State.rk hsame
  refine ⟨f key, (hkeys key s.rk).trans ?_⟩
  rw [← hrk]
  rfl

theorem CarriesKeys.withRk (h : CarriesKeys op s t) (hop : op s = .next t) (rk : RoundKeys) :
    ∃ rk', op { s with rk := rk } = .next { t with rk := rk' } := by
  obtain ⟨f, g, hkeys⟩ := h
  have hkey : t.key = f s.key := by
    have hsame : op s = .next (withKeys (f s.key) (g s.rk) t) := hkeys s.key s.rk
    rw [hop] at hsame
    injection hsame with hsame
    exact congrArg State.key hsame
  refine ⟨g rk, (hkeys s.key rk).trans ?_⟩
  rw [← hkey]
  rfl

end

/-- No register of the window shows KEY or RK. -/
theorem regValue_withKeys (r : Reg) (key : KeyBuffer) (rk : RoundKeys) (s : State) :
    regValue r (withKeys key rk s) = regValue r s := by
  cases r <;> rfl

theorem busRead_withKeys (off : Nat) (key : KeyBuffer) (rk : RoundKeys) (s : State) :
    busRead off (withKeys key rk s) = withKeys key rk (busRead off s) := by
  rw [busRead, regValue_withKeys, busRead, apply_ite (withKeys key rk)]
  rfl

theorem busError_withKeys (a : Access) (key : KeyBuffer) (rk : RoundKeys) (s : State) :
    busError a (withKeys key rk s) = withKeys key rk (busError a s) := by
  rw [busError, busError]
  cases a.kind <;> rfl

/-- A write reads neither, for all that it may write a word of KEY. -/
theorem busWrite_carriesKeys (off : Nat) (v : Word) (s : State) :
    CarriesKeys (fun u => .next (busWrite off v u)) s (busWrite off v s) := by
  by_cases hdropped : s.busy = true ∧ (regAt off).writeDroppedWhileBusy = true
  · refine ⟨id, id, fun key rk => congrArg Host.Outcome.next ?_⟩
    obtain ⟨hbusy, hreg⟩ := hdropped
    rw [busWrite_of_dropped hbusy hreg, busWrite_of_dropped (s := withKeys key rk s) hbusy hreg]
    rfl
  · have htaken : ∀ key rk, busWrite off v (withKeys key rk s) =
        respond .written (writeReg (regAt off) v (withKeys key rk s)) :=
      fun key rk => busWrite_of_taken (s := withKeys key rk s) hdropped v
    rw [CarriesKeys, busWrite_of_taken hdropped]
    simp only [htaken]
    cases regAt off with
    | key j => exact ⟨fun key => writeLanes key j v, id, fun _ _ => rfl⟩
    | _ => exact ⟨id, id, fun _ _ => rfl⟩

theorem busAccess_carriesKeys (a : Access) (s : State) :
    CarriesKeys (fun u => .next (busAccess a u)) s (busAccess a s) := by
  unfold busAccess
  cases windowOffset a.addr with
  | none => exact ⟨id, id, fun _ _ => rfl⟩
  | some off =>
    by_cases hform : a.width = .w32 ∧ off % 4 = 0
    · simp only [if_pos hform]
      cases a.kind with
      | read => exact ⟨id, id, fun key rk => congrArg Host.Outcome.next (busRead_withKeys off key rk s)⟩
      | write d => exact busWrite_carriesKeys off _ s
    · simp only [if_neg hform]
      exact ⟨id, id, fun key rk => congrArg Host.Outcome.next (busError_withKeys a key rk s)⟩

theorem advance_withKeys (key : KeyBuffer) (rk : RoundKeys) (s : State) :
    advance (withKeys key rk s) = withKeys key rk (advance s) := by
  obtain ⟨_, _, keyed, _, _, ksize, _, _, _, _, seq, _, _, _⟩ := s
  cases seq with
  | idle => rfl
  | run w ph =>
    simp only [advance, withKeys]
    cases phaseAfter ph (phases (decode w) keyed ksize.toNat) <;> rfl

/-- The commands that read neither the key buffer nor a round key. -/
theorem exec_carriesKeys {i : Instr} {s t : State} (hinit : ∀ ksz tz, i ≠ .init ksz tz)
    (haddRk : ∀ idx, i ≠ .addRk idx) (hencrypt : i ≠ .encrypt) (hdecrypt : i ≠ .decrypt)
    (h : exec i s = .next t) : CarriesKeys (exec i) s t := by
  cases i with
  | init ksz tz => exact absurd rfl (hinit ksz tz)
  | addRk idx => exact absurd rfl (haddRk idx)
  | encrypt => exact absurd rfl hencrypt
  | decrypt => exact absurd rfl hdecrypt
  | cleanup =>
    injection h with h
    exact ⟨fun _ => zeroBytes 32, fun _ => zeroRoundKeys, fun _ _ => h ▸ rfl⟩
  | _ =>
    injection h with h
    exact ⟨id, id, fun _ _ => h ▸ rfl⟩

/-- ADDRK, ENCRYPT and DECRYPT do not read the key buffer. -/
theorem exec_cipher_withKey {i : Instr} (hi : (∃ idx, i = .addRk idx) ∨ i = .encrypt ∨ i = .decrypt) (s : State) :
    ∃ code blk, ∀ key, exec i { s with key := key } = .next (retired code { s with key := key, blk := blk }) := by
  rcases hi with ⟨idx, rfl⟩ | rfl | rfl
  · by_cases hk : (!s.keyed) = true
    · exact ⟨_, s.blk, fun _ => if_pos hk⟩
    · by_cases hidx : contextRounds s < idx
      · exact ⟨_, s.blk, fun _ => (if_neg hk).trans (if_pos hidx)⟩
      · exact ⟨_, addRoundKey s.blk (effRoundKey s.rk s.tweak (contextRounds s) idx),
          fun _ => (if_neg hk).trans (if_neg hidx)⟩
  · by_cases hk : s.keyed = true
    · exact ⟨_, taesEncrypt s.rk (contextRounds s) s.tweak s.blk, fun _ => if_pos hk⟩
    · exact ⟨_, s.blk, fun _ => if_neg hk⟩
  · by_cases hk : s.keyed = true
    · exact ⟨_, taesDecrypt s.rk (contextRounds s) s.tweak s.blk, fun _ => if_pos hk⟩
    · exact ⟨_, s.blk, fun _ => if_neg hk⟩

/-- Only INIT reads the key buffer (10_state.md R40). -/
theorem exec_withKey {i : Instr} {s t : State} (hinit : ∀ ksz tz, i ≠ .init ksz tz) (h : exec i s = .next t)
    (key : KeyBuffer) : ∃ key', exec i { s with key := key } = .next { t with key := key' } := by
  by_cases hcipher : (∃ idx, i = .addRk idx) ∨ i = .encrypt ∨ i = .decrypt
  · obtain ⟨code, blk, he⟩ := exec_cipher_withKey hcipher s
    have ht : exec i s = _ := he s.key
    rw [h] at ht
    injection ht with ht
    exact ⟨key, ht ▸ he key⟩
  · obtain ⟨haddRk, hencrypt, hdecrypt⟩ : (∀ idx, i ≠ .addRk idx) ∧ i ≠ .encrypt ∧ i ≠ .decrypt := by
      simpa using hcipher
    exact (exec_carriesKeys hinit haddRk hencrypt hdecrypt h).withKey h key

/-- Only ADDRK, ENCRYPT and DECRYPT read the round keys: INIT replaces them (10_state.md R43). -/
theorem exec_withRk {i : Instr} {s t : State} (haddRk : ∀ idx, i ≠ .addRk idx) (hencrypt : i ≠ .encrypt)
    (hdecrypt : i ≠ .decrypt) (h : exec i s = .next t) (rk : RoundKeys) :
    ∃ rk', exec i { s with rk := rk } = .next { t with rk := rk' } := by
  by_cases hinit : ∃ ksz tz, i = .init ksz tz
  · obtain ⟨ksz, tz, rfl⟩ := hinit
    exact ⟨t.rk, h⟩
  · exact (exec_carriesKeys (by simpa using hinit) haddRk hencrypt hdecrypt h).withRk h rk

/-- A step reads neither KEY nor RK, unless a command completes in it; then it is that command's completion. -/
theorem step_carriesKeys {s t : State} (h : step s = .next t) :
    CarriesKeys step s t ∨ ∃ i rest, CompletesNext s i ∧
      ∀ key rk, step (withKeys key rk s) = exec i (withKeys key rk (withPending rest s)) := by
  rcases step_cases h with ⟨a, rest, hp, rfl⟩ | ⟨rest, hp, rfl⟩ | ⟨rest, hturn, hb, _⟩ | ⟨rest, hturn, hb, rfl⟩
    | ⟨rest, hp, rfl⟩
  · obtain ⟨f, g, hkeys⟩ := busAccess_carriesKeys a (withPending rest s)
    exact .inl ⟨f, g, fun key rk => (step_cons (s := withKeys key rk s) hp).trans (hkeys key rk)⟩
  · exact .inl ⟨id, id, fun key rk => (step_cons (s := withKeys key rk s) hp).trans
      (congrArg Host.Outcome.next (advance_withKeys key rk (withPending rest s)))⟩
  · exact .inr ⟨_, rest, completesNext_of_blockTurn hturn hb, fun key rk =>
      (step_blockTurn (s := withKeys key rk s) hturn).trans
        (completeCommand_busy (s := withKeys key rk (withPending rest s)) hb)⟩
  · exact .inl ⟨id, id, fun key rk => (step_blockTurn (s := withKeys key rk s) hturn).trans
      (completeCommand_idle (s := withKeys key rk (withPending rest s)) hb)⟩
  · exact .inl ⟨fun _ => zeroBytes 32, fun _ => zeroRoundKeys, fun key rk => step_cons (s := withKeys key rk s) hp⟩

end Sys2Proof.Machine
end

section
/-! PROOFS. The obligations about every step of the whole machine: the invariants, and what KEY and RK can be seen
through. -/

namespace Sys2Proof.Machine

/-- Settles O22: the reset values meet each invariant. -/
theorem invariantHoldsAtReset : Obligations.InvariantHoldsAtReset := inv_reset

/-- Settles O23: each of the four invariants is kept by each of the five things a step can be. -/
theorem everyStepKeepsTheInvariant : Obligations.EveryStepKeepsTheInvariant := by
  rintro s t ⟨hkeySize, hroundKeys, hsequencer, herr⟩ h
  exact ⟨step_keySizeInv h hkeySize, step_roundKeyInv h hroundKeys, step_sequencerInv h hsequencer, step_errInv h herr⟩

/-- Settles O26: a step carries KEY along, and of the commands that may complete in it INIT alone reads KEY. -/
theorem keyBufferIsNeverReadBack : Obligations.KeyBufferIsNeverReadBack := by
  intro s t key hinit h
  rcases step_carriesKeys h with hcarries | ⟨i, rest, hcompletes, hstep⟩
  · exact hcarries.withKey h key
  · have he : exec i (withPending rest s) = .next t := (hstep s.key s.rk).symm.trans h
    obtain ⟨key', he'⟩ := exec_withKey (fun ksz tz hi => hinit ksz tz (hi ▸ hcompletes)) he key
    exact ⟨key', (hstep key s.rk).trans he'⟩

/-- Settles O27: a step carries RK along, and of the commands that may complete in it only ADDRK, ENCRYPT and DECRYPT
read RK. -/
theorem roundKeysAreSeenOnlyThroughCiphers : Obligations.RoundKeysAreSeenOnlyThroughCiphers := by
  intro s t rk haddRk hencrypt hdecrypt h
  rcases step_carriesKeys h with hcarries | ⟨i, rest, hcompletes, hstep⟩
  · exact hcarries.withRk h rk
  · have he : exec i (withPending rest s) = .next t := (hstep s.key s.rk).symm.trans h
    obtain ⟨rk', he'⟩ := exec_withRk (fun idx hi => haddRk idx (hi ▸ hcompletes)) (fun hi => hencrypt (hi ▸ hcompletes))
      (fun hi => hdecrypt (hi ▸ hcompletes)) he rk
    exact ⟨rk', (hstep s.key rk).trans he'⟩

end Sys2Proof.Machine
end

section
/-! PROOFS. The shared laws of runs: which commands reach TWEAK and BLK, which steps answer, and the run of a command
written to CTRL of an idle block and completed next. -/

namespace Sys2Proof.Machine

/-! ## The cells of the commands (10_state.md section 6) -/

/-- A command other than INIT, CLEANUP and TWEAK_INC writes no cell but BLK and its result. -/
theorem exec_writes_only_blk {i : Instr} (hinit : ∀ ksz tz, i ≠ .init ksz tz) (hcleanup : i ≠ .cleanup)
    (hinc : i ≠ .tweakInc) (s : State) : ∃ code blk, exec i s = .next (retired code { s with blk := blk }) := by
  by_cases hcipher : (∃ idx, i = .addRk idx) ∨ i = .encrypt ∨ i = .decrypt
  · obtain ⟨code, blk, he⟩ := exec_cipher_withKey hcipher s
    exact ⟨code, blk, he s.key⟩
  · cases i with
    | init ksz tz => exact absurd rfl (hinit ksz tz)
    | cleanup => exact absurd rfl hcleanup
    | tweakInc => exact absurd rfl hinc
    | addRk idx => exact absurd (.inl ⟨idx, rfl⟩) hcipher
    | encrypt => exact absurd (.inr (.inl rfl)) hcipher
    | decrypt => exact absurd (.inr (.inr rfl)) hcipher
    | _ => exact ⟨_, _, rfl⟩

/-- An INIT that changes TWEAK was told to (`tz = 1`), or failed (41_key_schedule.md R145, R146). -/
theorem exec_init_changes_tweak {ksz : Nat} {tz : Bool} {s t : State} (h : exec (.init ksz tz) s = .next t)
    (hne : t.tweak ≠ s.tweak) : tz = true ∨ t.err = 1 := by
  by_cases hsize : validKeySize ksz = true
  · rw [exec_init_of_valid hsize] at h
    injection h with h
    subst h
    cases tz with
    | true => exact .inl rfl
    | false => exact absurd rfl hne
  · rw [exec_init_of_invalid hsize] at h
    injection h with h
    exact .inr (h ▸ rfl)

theorem exec_changes_tweak {i : Instr} {s t : State} (h : exec i s = .next t) (hne : t.tweak ≠ s.tweak) :
    (∃ ksz, i = .init ksz true) ∨ (∃ ksz tz, i = .init ksz tz ∧ t.err = 1) ∨ i = .cleanup ∨ i = .tweakInc := by
  by_cases hinit : ∃ ksz tz, i = .init ksz tz
  · obtain ⟨ksz, tz, rfl⟩ := hinit
    rcases exec_init_changes_tweak h hne with rfl | herr
    · exact .inl ⟨ksz, rfl⟩
    · exact .inr (.inl ⟨ksz, tz, rfl, herr⟩)
  · by_contra hnot
    obtain ⟨hcleanup, hinc⟩ := not_or.mp (not_or.mp (not_or.mp hnot).2).2
    obtain ⟨code, blk, he⟩ := exec_writes_only_blk (by simpa using hinit) hcleanup hinc s
    rw [he] at h
    injection h with h
    exact hne (h ▸ rfl)

/-- NOP, INIT, TWEAK_INC and the reserved opcodes keep BLK. -/
theorem exec_changes_blk {i : Instr} {s t : State} (h : exec i s = .next t) (hne : t.blk ≠ s.blk) :
    i = .encrypt ∨ i = .decrypt ∨ i = .cleanup ∨ i = .subBytes ∨ i = .invSubBytes ∨ i = .shiftRows ∨
      i = .invShiftRows ∨ i = .mixColumns ∨ i = .invMixColumns ∨ (∃ idx, i = .addRk idx) ∨ ∃ gfc, i = .gfMul gfc := by
  have hkept : ∀ {code : ErrCode} {u : State}, u.blk = s.blk → exec i s ≠ .next (retired code u) := by
    intro code u hu he
    rw [h] at he
    injection he with he
    exact hne (he ▸ hu)
  cases i with
  | nop => exact absurd (exec_nop s) (hkept rfl)
  | tweakInc => exact absurd (exec_tweakInc s) (hkept rfl)
  | reserved67 odd => exact absurd (exec_reserved67 s odd) (hkept rfl)
  | init ksz tz =>
    by_cases hsize : validKeySize ksz = true
    · exact absurd (exec_init_of_valid hsize tz s) (hkept rfl)
    · exact absurd (exec_init_of_invalid hsize tz s) (hkept rfl)
  | _ => simp

/-! ## Steps that answer a next state -/

theorem completeCommand_next (s : State) : ∃ t, completeCommand s = .next t := by
  rcases Bool.eq_false_or_eq_true s.busy with hb | hb
  · obtain ⟨code, u, he, _⟩ := completeCommand_frees hb
    exact ⟨_, he⟩
  · exact ⟨s, completeCommand_idle hb⟩

theorem step_next {s : State} (h : ∀ a rest, s.pending ≠ .reset (some a) :: rest) : ∃ t, step s = .next t := by
  cases hp : s.pending with
  | nil => exact step_nil hp ▸ completeCommand_next s
  | cons e rest =>
    rw [step_cons hp]
    cases e with
    | access a => exact ⟨_, rfl⟩
    | advance => exact ⟨_, rfl⟩
    | complete => exact completeCommand_next _
    | reset coincident =>
      cases coincident with
      | none => exact ⟨_, rfl⟩
      | some a => exact absurd hp (h a rest)

theorem busAccess_pending (a : Access) (s : State) : (busAccess a s).pending = s.pending := by
  rcases busAccess_write_or_unchanged a s with ⟨off, d, _, _, _, h⟩ | ⟨rs, n, h⟩
  · rcases busWrite_effects off (d.setWidth 32) s with ⟨_, hw⟩ | ⟨_, _, _, _, _, hw⟩ | ⟨_, _, hw⟩ <;> rw [h, hw] <;> rfl
  · rw [h]

theorem advance_of_idle {s : State} (h : s.seq = .idle) : advance s = s := by
  simp only [advance, h]

theorem advance_pending (s : State) : (advance s).pending = s.pending := by
  rcases advance_cases s with h | ⟨_, _, _, _, _, h⟩ <;> rw [h]

/-- A step takes the earliest event and leaves the rest. -/
theorem step_takes_event {s t : State} {e : Event} {rest : List Event} (hp : s.pending = e :: rest)
    (h : step s = .next t) : t.pending = rest := by
  have htake : ∀ {e' rest'}, s.pending = e' :: rest' → rest' = rest := fun hp' => (List.cons.inj (hp'.symm.trans hp)).2
  have hturn : ∀ {rest'}, BlockTurn s rest' → rest' = rest := by
    rintro rest' (hc | ⟨hn, _⟩)
    · exact htake hc
    · exact absurd (hn.symm.trans hp) (by simp)
  rcases step_cases h with ⟨a, rest', hp', rfl⟩ | ⟨rest', hp', rfl⟩ | ⟨rest', ht, _, he⟩ | ⟨rest', ht, _, rfl⟩
    | ⟨rest', hp', rfl⟩
  · exact (busAccess_pending a _).trans (htake hp')
  · exact (advance_pending _).trans (htake hp')
  · exact (exec_pending he).trans (hturn ht)
  · exact hturn ht
  · exact htake hp'

/-! ## Runs -/

theorem core_run_succ (M : Host.Core) {s t : M.State} (h : M.step s = .next t) (k : Nat) :
    M.run (k + 1) s = M.run k t := by
  rw [Host.Core.run, h]

theorem run_succ {s t : State} (h : step s = .next t) (k : Nat) :
    Host.Core.run Sys2Proof.core (k + 1) s = Host.Core.run Sys2Proof.core k t :=
  core_run_succ Sys2Proof.core h k

/-- A busy block is free after at most one step more than there are events: each step takes one of them, and without
any the command completes. -/
theorem run_until_free (s : State) (hb : s.busy = true) (hreset : ∀ a, Event.reset (some a) ∉ s.pending) :
    ∃ k t, k ≤ s.pending.length + 1 ∧ Host.Core.run Sys2Proof.core k s = .next t ∧ t.busy = false := by
  generalize hes : s.pending = es at hreset
  induction es generalizing s with
  | nil =>
    obtain ⟨code, u, he, _⟩ := completeCommand_frees hb
    exact ⟨1, _, Nat.le_refl 1, run_succ ((step_nil hes).trans he) 0, rfl⟩
  | cons e rest ih =>
    obtain ⟨t, ht⟩ : ∃ t, step s = .next t := by
      refine step_next fun a rest' hp => hreset a ?_
      rw [(List.cons.inj (hes.symm.trans hp)).1]
      exact List.mem_cons_self
    rcases Bool.eq_false_or_eq_true t.busy with hbt | hbt
    · obtain ⟨k, u, hk, hrun, hu⟩ := ih t hbt (step_takes_event hes ht)
        fun a ha => hreset a (List.mem_cons_of_mem e ha)
      exact ⟨k + 1, u, Nat.succ_le_succ hk, (run_succ ht k).trans hrun, hu⟩
    · exact ⟨1, t, Nat.succ_le_succ (Nat.zero_le _), run_succ ht 0, hbt⟩

/-- A command written to CTRL of an idle block and completed next is two steps: the state of its completion is the
idle one with the word accepted and the write answered (60_exceptions.md R276). -/
theorem run_issue {s t : State} {d : BitVec 64} {rest : List Event} (hb : s.busy = false)
    (hp : s.pending = writeEvent 0x04 d :: .complete :: rest)
    (he : exec (decode (d.setWidth 32)) (answered .written rest (accept (d.setWidth 32) s)) = .next t) (k : Nat) :
    Host.Core.run Sys2Proof.core (k + 2) s = Host.Core.run Sys2Proof.core k t := by
  have hwrite := step_writeEvent (by decide) (by decide) hp
  rw [busWrite_answered_of_taken (by simp [hb])] at hwrite
  have hcomplete : step (answered .written (.complete :: rest) (accept (d.setWidth 32) s)) = .next t := by
    rw [step_cons (rest := rest) rfl]
    exact (completeCommand_busy (s := answered .written rest (accept _ s)) rfl).trans he
  exact (run_succ hwrite _).trans (run_succ hcomplete k)

end Sys2Proof.Machine
end

section
/-! PROOFS. The obligations about single steps and runs of the whole machine. -/

namespace Sys2Proof.Machine

/-- Settles O11: every command retires with the bus's cells as they were, and a change of a cell names the command. -/
theorem commandsWriteOnlyTheirCells : Obligations.CommandsWriteOnlyTheirCells := by
  intro i s t h
  refine ⟨?environment, fun hne => exec_changes_context h (.inl hne), exec_changes_tweak h, exec_changes_blk h,
    fun hne => exec_changes_context h (.inr hne)⟩
  case environment =>
    obtain ⟨code, u, rfl, henvironment⟩ := exec_next h
    exact henvironment

/-- Settles O6: the step is `resetBlock`. -/
theorem resetEventClearsEverything : Obligations.ResetEventClearsEverything :=
  fun _ _ hp => step_cons hp

/-- Settles O7: at the block's turn a step is `completeCommand`, which with BUSY = 1 is `exec` of CTRL. -/
theorem stepRunsDecodedCommand : Obligations.StepRunsDecodedCommand := by
  refine ⟨?nothingPending, ?completion, ?fetchWord⟩
  case nothingPending =>
    rintro s i hb rfl hp
    rw [step_nil hp, completeCommand_busy hb]
  case completion =>
    rintro s i rest hb rfl hp
    exact (step_cons hp).trans (completeCommand_busy (s := withPending rest s) hb)
  case fetchWord =>
    intro s w
    have hword : BitVec.ofNat 32 (w.toNat % 2 ^ 32) = w := by
      rw [Nat.mod_eq_of_lt w.isLt, BitVec.ofNat_toNat, BitVec.setWidth_eq]
    rw [State.withFetchWord, hword, step_cons (rest := s.pending) rfl]
    exact completeCommand_busy (s := accept w s) rfl

/-- Settles O17: a read of TWEAK or BLK while BUSY = 1 takes the drawing branch of `busRead`, any other the defined
one. -/
theorem busyReadsAreFreeDraws : Obligations.BusyReadsAreFreeDraws := by
  refine ⟨?draw, ?defined⟩
  case draw =>
    intro s rest off ha hlo hhi hb hp
    have hfree : (withPending rest s).busy = true ∧ (regAt off).unspecifiedWhileBusy = true :=
      ⟨hb, (regAt_unspecified_iff off).mpr ⟨hlo, hhi⟩⟩
    rw [step_readEvent (by omega) ha hp, busRead, if_pos hfree]
    rfl
  case defined =>
    intro s rest off hoff ha hreg _ hp
    rw [step_readEvent hoff ha hp, busRead_answered_of_defined (by omega)]

/-- Settles O18: the access is a `busError`, which answers, and for a read counts a draw. -/
theorem busErrorChangesNothing : Obligations.BusErrorChangesNothing := by
  intro s rest a off hoff haddr hform hp
  have hstep : step s = .next (busError a (withPending rest s)) := by
    rw [step_cons hp, handle, busAccess_error hoff haddr (not_and_or.mpr hform)]
  rw [hstep, busError]
  cases a.kind with
  | read => exact ⟨_, s.draws + 1, rfl, fun _ => ⟨rfl, _, rfl⟩, fun _ => nofun⟩
  | write d => exact ⟨_, s.draws, rfl, nofun, fun _ _ => ⟨rfl, rfl⟩⟩

/-- Settles O20: the address resolves to no offset of the window. -/
theorem accessOutsideWindowIsUnseen : Obligations.AccessOutsideWindowIsUnseen := by
  intro s rest a haddr hp
  have hwindow : windowOffset a.addr = none := by
    have hsize : Config.windowSize = 0x100 := rfl
    exact if_neg (by omega)
  rw [step_cons hp, handle, busAccess, hwindow]
  rfl

/-- Settles O21: while BUSY = 1 a write reaches WERR only, and a walk SEQ only. -/
theorem busyHoldsTheOperands : Obligations.BusyHoldsTheOperands := by
  intro s t h hb
  rcases step_inversion h with ⟨off, d, rest, _, _, _, rfl⟩ | ⟨_, _, _, rfl⟩ | ⟨_, _, _, _, _, _, rfl⟩ | ⟨i, hc, _⟩
    | ⟨rest, hp, _⟩
  · obtain ⟨werr, hw⟩ := busWrite_of_busy (s := withPending rest s) hb off (d.setWidth 32)
    rw [hw]
    exact .inl ⟨hb, rfl, rfl, rfl, rfl, rfl, rfl, rfl⟩
  · exact .inl ⟨hb, rfl, rfl, rfl, rfl, rfl, rfl, rfl⟩
  · exact .inl ⟨hb, rfl, rfl, rfl, rfl, rfl, rfl, rfl⟩
  · obtain ⟨hbusy, rfl, hturn⟩ := hc
    exact .inr (.inl ⟨hbusy, rfl, hturn⟩)
  · exact .inr (.inr ⟨rest, hp⟩)

/-- Settles O25: no write and no walk reaches RK or KEYED, and of the commands only INIT and CLEANUP do. -/
theorem roundKeysChangeOnlyWithTheContext : Obligations.RoundKeysChangeOnlyWithTheContext := by
  intro s t h hne
  rcases step_inversion h with ⟨off, d, rest, _, _, _, rfl⟩ | ⟨_, _, _, rfl⟩ | ⟨_, _, _, _, _, _, rfl⟩ | ⟨i, hc, he⟩
    | ⟨rest, hp, _⟩
  · have hkept : (busWrite off (d.setWidth 32) (withPending rest s)).rk = s.rk := by
      rcases busWrite_effects off (d.setWidth 32) (withPending rest s) with
        ⟨_, hw⟩ | ⟨_, _, _, _, _, hw⟩ | ⟨_, _, hw⟩ <;> rw [hw] <;> rfl
    simp [hkept] at hne
  · simp at hne
  · simp at hne
  · have hcells : t.rk ≠ s.rk ∨ t.ksize ≠ s.ksize ∨ t.keyed ≠ s.keyed := hne.imp_right .inr
    rcases exec_changes_context he (.inr hcells) with ⟨ksz, tz, rfl⟩ | rfl
    · exact .inl ⟨ksz, tz, hc⟩
    · exact .inr (.inl hc)
  · exact .inr (.inr ⟨rest, hp⟩)

/-- Settles O28: `handle` refuses one event, the coincident reset. -/
theorem stepStopsOnlyOnCoincidentReset : Obligations.StepStopsOnlyOnCoincidentReset :=
  ⟨fun _ h => step_next h, fun _ _ _ hp => step_cons hp⟩

/-- Settles O29: by induction on the events to come. -/
theorem busyBlockCompletes : Obligations.BusyBlockCompletes := run_until_free

/-- Settles O60: an idle block has nothing to complete and no phase to walk, so of the five things a step can be only
a write and a reset reach a register. -/
theorem idleBlockWaits : Obligations.IdleBlockWaits := by
  refine ⟨?nothingPending, ?completion, ?walk, ?registers⟩
  case nothingPending =>
    intro s hb hp
    rw [step_nil hp, completeCommand_idle hb]
  case completion =>
    intro s rest hb hp
    exact (step_cons hp).trans (completeCommand_idle (s := withPending rest s) hb)
  case walk =>
    intro s rest _ hseq hp
    rw [step_cons hp, handle, advance_of_idle (s := withPending rest s) hseq]
    rfl
  case registers =>
    intro s t h hb hwrite hreset
    rcases step_inversion h with ⟨off, d, rest, hp, hoff, ha, _⟩ | ⟨_, _, _, rfl⟩ | ⟨w, ph, _, _, hseq, _, rfl⟩
      | ⟨i, hc, _⟩ | ⟨rest, hp, _⟩
    · exact absurd hp (hwrite off d rest hoff ha)
    · exact ⟨rfl, rfl, rfl, rfl, rfl, rfl, rfl, rfl, rfl, rfl, id⟩
    · refine ⟨rfl, rfl, rfl, rfl, rfl, rfl, rfl, rfl, rfl, rfl, fun hidle => ?_⟩
      exact absurd (hseq.symm.trans hidle) (by simp)
    · obtain ⟨hbusy, _⟩ := hc
      exact absurd (hb.symm.trans hbusy) (by decide)
    · exact absurd hp (hreset rest)

/-- Settles O30: CLEANUP zeroes the context and BLK, its retirement ERR, BUSY and SEQ, and the STATUS write WERR. -/
theorem cleanupAndStatusWriteResetTheBlock : Obligations.CleanupAndStatusWriteResetTheBlock := by
  intro s hb hp
  have hissue := run_issue hb hp (exec_cleanup _) 1
  refine hissue.trans ((run_succ (step_writeEvent (by decide) (by decide) rfl) 0).trans ?_)
  rfl

end Sys2Proof.Machine
end

section
/-! PROOFS. The shared laws of the byte lanes and of the inverse pairs: a word is its four lanes, an inverse in the
field is unique, and two circulants multiply like polynomials modulo `x^4 + 1`. -/

namespace Sys2Proof.Machine

/-! ## The byte lanes (20_memory.md R75) -/

/-- A word is its four byte lanes: bit `i` is bit `i % 8` of lane `i / 8`. -/
theorem word_ext_laneByte {v w : Word} (h : ∀ k, k < 4 → laneByte v k = laneByte w k) : v = w := by
  apply BitVec.eq_of_getLsbD_eq
  intro i hi
  have hbit : ∀ u : Word, u.getLsbD i = (laneByte u (i / 8)).getLsbD (i % 8) := by
    intro u
    rw [laneByte, BitVec.getLsbD_extractLsb', Nat.div_add_mod, decide_eq_true (Nat.mod_lt i (by decide)), Bool.true_and]
  rw [hbit, hbit, h _ (by omega)]

theorem readLanes_eq_shifts {n : Nat} (a : Vector Byte n) (j : Nat) :
    readLanes a j =
      (byteAt a (4 * j)).setWidth 32 ||| ((byteAt a (4 * j + 1)).setWidth 32 <<< 8)
        ||| ((byteAt a (4 * j + 2)).setWidth 32 <<< 16) ||| ((byteAt a (4 * j + 3)).setWidth 32 <<< 24) := by
  have hword : readLanes a j =
      wordOfBytes (byteAt a (4 * j + 3)) (byteAt a (4 * j + 2)) (byteAt a (4 * j + 1)) (byteAt a (4 * j)) := rfl
  have hreverse : ∀ w3 w2 w1 w0 : Word, w3 ||| w2 ||| w1 ||| w0 = w0 ||| w1 ||| w2 ||| w3 := by
    intro w3 w2 w1 w0
    ac_rfl
  rw [hword, wordOfBytes_eq_shifts]
  exact hreverse _ _ _ _

theorem byteAt_writeLanes_lane {n : Nat} (a : Vector Byte n) (v : Word) {j k : Nat} (hk : k < 4) (hn : 4 * j + k < n) :
    byteAt (writeLanes a j v) (4 * j + k) = laneByte v k := by
  have hword : (4 * j + k) / 4 = j := by omega
  have hlane : (4 * j + k) % 4 = k := by omega
  rw [byteAt_writeLanes a j v hn, if_pos hword, hlane]

theorem byteAt_writeLanes_of_ne {n : Nat} (a : Vector Byte n) (v : Word) {j i : Nat} (hi : i < n) (hne : i / 4 ≠ j) :
    byteAt (writeLanes a j v) i = byteAt a i := by
  rw [byteAt_writeLanes a j v hi, if_neg hne]

theorem readLanes_writeLanes {n : Nat} (a : Vector Byte n) (v : Word) {j : Nat} (hn : 4 * j + 3 < n) :
    readLanes (writeLanes a j v) j = v := by
  apply word_ext_laneByte
  intro k hk
  rw [laneByte_readLanes _ _ hk, byteAt_writeLanes_lane a v hk (by omega)]

/-! ## GF(2^8) (40_gf_arith.md R121-R124) -/

/-- An inverse is unique: `c = c•(a•b) = (a•c)•b = b` (40_gf_arith.md R124). -/
theorem gmul_inverse_unique {a b c : Byte} (hb : gmul a b = 1) (hc : gmul a c = 1) : c = b := by
  calc c = gmul c 1 := (gmul_one c).symm
    _ = gmul c (gmul a b) := by rw [hb]
    _ = gmul (gmul a c) b := by rw [gmul_comm a c, gmul_assoc]
    _ = b := by rw [hc, one_gmul]

theorem toNat_xtime : ∀ a : Byte, (xtime a).toNat = if a.toNat < 128 then 2 * a.toNat else (2 * a.toNat) ^^^ 0x11B := by
  decide

/-! ## The primitives undo one another (42_round_primitives.md R162, R177) -/

theorem invSbox_sbox : ∀ a : Byte, invSbox (sbox a) = a := by
  decide

theorem sbox_invSbox : ∀ a : Byte, sbox (invSbox a) = a := by
  decide

theorem invSubBytes_subBytes (b : Block) : invSubBytes (subBytes b) = b :=
  bytes_ext fun i hi => by rw [byteAt_invSubBytes _ hi, byteAt_subBytes _ hi, invSbox_sbox]

theorem subBytes_invSubBytes (b : Block) : subBytes (invSubBytes b) = b :=
  bytes_ext fun i hi => by rw [byteAt_subBytes _ hi, byteAt_invSubBytes _ hi, sbox_invSbox]

/-- Byte `i` of a block is at row `i % 4`, column `i / 4` (00_scope.md R11). -/
theorem block_ext_matrix {b c : Block}
    (h : ∀ row col, row < 4 → col < 4 → byteAt b (row + 4 * col) = byteAt c (row + 4 * col)) : b = c := by
  apply bytes_ext
  intro i hi
  have hplace : i % 4 + 4 * (i / 4) = i := Nat.mod_add_div i 4
  rw [← hplace]
  exact h _ _ (Nat.mod_lt i (by decide)) (by omega)

theorem invShiftRows_shiftRows (b : Block) : invShiftRows (shiftRows b) = b := by
  apply block_ext_matrix
  intro row col hrow hcol
  have hturned : ((col + (4 - row)) % 4 + row) % 4 = col := by omega
  have hback : byteAt (invShiftRows (shiftRows b)) (row + 4 * (((col + (4 - row)) % 4 + row) % 4)) =
      byteAt b (row + 4 * (((col + (4 - row)) % 4 + row) % 4)) := by
    rw [byteAt_invShiftRows_matrix _ hrow (Nat.mod_lt _ (by decide)),
      byteAt_shiftRows_matrix b hrow (Nat.mod_lt _ (by decide))]
  rwa [hturned] at hback

theorem shiftRows_invShiftRows (b : Block) : shiftRows (invShiftRows b) = b := by
  apply block_ext_matrix
  intro row col hrow hcol
  rw [byteAt_shiftRows_matrix _ hrow hcol, byteAt_invShiftRows_matrix b hrow hcol]

theorem subBytes_shiftRows (b : Block) : subBytes (shiftRows b) = shiftRows (subBytes b) := by
  apply block_ext_matrix
  intro row col hrow hcol
  rw [byteAt_subBytes _ (by omega), byteAt_shiftRows_matrix _ hrow hcol, byteAt_shiftRows_matrix _ hrow hcol,
    byteAt_subBytes _ (by omega)]

/-! ### The circulants of MixColumns and InvMixColumns -/

/-- A circulant reads the four elements of its column only. -/
theorem circulant_congr (m0 m1 m2 m3 : Byte) {x y : Nat → Byte} (h : ∀ k, k < 4 → x k = y k) (r : Nat) :
    circulant m0 m1 m2 m3 x r = circulant m0 m1 m2 m3 y r := by
  have hmod : ∀ k, x (k % 4) = y (k % 4) := fun k => h _ (Nat.mod_lt k (by decide))
  simp only [circulant, hmod]

/-- One circulant after another is the circulant of the product of their rows, as polynomials modulo `x^4 + 1`. -/
theorem circulant_circulant (n0 n1 n2 n3 m0 m1 m2 m3 : Byte) (a : Nat → Byte) (r : Nat) :
    circulant n0 n1 n2 n3 (circulant m0 m1 m2 m3 a) r =
      circulant (gmul m0 n0 ^^^ gmul m3 n1 ^^^ gmul m2 n2 ^^^ gmul m1 n3)
        (gmul m1 n0 ^^^ gmul m0 n1 ^^^ gmul m3 n2 ^^^ gmul m2 n3)
        (gmul m2 n0 ^^^ gmul m1 n1 ^^^ gmul m0 n2 ^^^ gmul m3 n3)
        (gmul m3 n0 ^^^ gmul m2 n1 ^^^ gmul m1 n2 ^^^ gmul m0 n3) a r := by
  simp only [circulant, gmul_xor_left, gmul_xor_right, gmul_assoc, Nat.mod_add_mod, Nat.add_assoc,
    Nat.reduceAdd, Nat.mod_mod, Nat.add_mod_right]
  have h5 : (r + 5) % 4 = (r + 1) % 4 := by omega
  have h6 : (r + 6) % 4 = (r + 2) % 4 := by omega
  simp only [h5, h6]
  ac_rfl

theorem circulant_one (a : Nat → Byte) (r : Nat) : circulant 1 0 0 0 a r = a (r % 4) := by
  rw [circulant, gmul_one, gmul_zero, gmul_zero, gmul_zero]
  simp

/-- The two rows multiply to 1, in either order. -/
theorem circulant_invMix_mix (a : Nat → Byte) (r : Nat) :
    circulant 14 11 13 9 (circulant 2 3 1 1 a) r = a (r % 4) :=
  (circulant_circulant 14 11 13 9 2 3 1 1 a r).trans (circulant_one a r)

theorem circulant_mix_invMix (a : Nat → Byte) (r : Nat) :
    circulant 2 3 1 1 (circulant 14 11 13 9 a) r = a (r % 4) :=
  (circulant_circulant 2 3 1 1 14 11 13 9 a r).trans (circulant_one a r)

theorem invMixColumns_mixColumns (b : Block) : invMixColumns (mixColumns b) = b := by
  apply block_ext_matrix
  intro row col hrow hcol
  rw [Nat.add_comm, byteAt_invMixColumns_column _ hcol hrow,
    circulant_congr _ _ _ _ (fun k hk => byteAt_mixColumns_column b hcol hk), circulant_invMix_mix,
    Nat.mod_eq_of_lt hrow]

theorem mixColumns_invMixColumns (b : Block) : mixColumns (invMixColumns b) = b := by
  apply block_ext_matrix
  intro row col hrow hcol
  rw [Nat.add_comm, byteAt_mixColumns_column _ hcol hrow,
    circulant_congr _ _ _ _ (fun k hk => byteAt_invMixColumns_column b hcol hk), circulant_mix_invMix,
    Nat.mod_eq_of_lt hrow]

/-- The S-box sends 0x00 to 0x63 and that to 0xFB. -/
theorem subBytes_subBytes_zeroBytes_ne : subBytes (subBytes (zeroBytes 16)) ≠ zeroBytes 16 := by
  intro h
  have hbyte : sbox (sbox 0) = 0 := by
    have hfirst := congrArg (byteAt · 0) h
    simpa only [byteAt_subBytes _ (show 0 < 16 by decide), byteAt_zeroBytes] using hfirst
  exact absurd hbyte (by decide)

end Sys2Proof.Machine
end

section
/-! PROOFS. The obligations about the byte lanes, the field, and the inverse pairs of primitives. -/

namespace Sys2Proof.Machine

/-- Settles O19: each lane is one byte, read, written, or left alone. -/
theorem byteLanesAreLittleEndian : Obligations.ByteLanesAreLittleEndian :=
  ⟨fun _ j a => readLanes_eq_shifts a j, fun _ _ _ a v hk hn => byteAt_writeLanes_lane a v hk hn,
    fun _ _ _ a v hi hne => byteAt_writeLanes_of_ne a v hi hne, fun _ _ a v hn => readLanes_writeLanes a v hn⟩

/-- Settles O32: doubling by a check of every byte, the multipliers as the sums of powers of two they are. -/
theorem doublingAndMultipliers : Obligations.DoublingAndMultipliers :=
  ⟨toNat_xtime, fun x => ⟨gmul_one x, gmul_two_eq_timesBy x, gmul_three_eq_timesBy x, gmul_nine_eq_timesBy x,
    gmul_eleven_eq_timesBy x, gmul_thirteen_eq_timesBy x, gmul_fourteen_eq_timesBy x⟩⟩

/-- Settles O33: the inverse of a nonzero byte is the one its S-box entry comes from. -/
theorem gfFieldLaws : Obligations.GfFieldLaws :=
  ⟨gmul_comm, gmul_assoc, gmul_xor_right, fun a => ⟨gmul_one a, gmul_zero a⟩,
    fun a ha => ⟨fieldInverse a, gmul_fieldInverse a ha, fun _ hc => gmul_inverse_unique (gmul_fieldInverse a ha) hc⟩⟩

/-- Settles O44: the S-boxes byte by byte, the row turns by row and column, and the circulants by their product. -/
theorem primitivesAreInversePairs : Obligations.PrimitivesAreInversePairs :=
  ⟨fun a => ⟨invSbox_sbox a, sbox_invSbox a⟩, fun b => ⟨invSubBytes_subBytes b, subBytes_invSubBytes b⟩,
    fun b => ⟨invShiftRows_shiftRows b, shiftRows_invShiftRows b⟩,
    fun b => ⟨invMixColumns_mixColumns b, mixColumns_invMixColumns b⟩, subBytes_shiftRows,
    subBytes_subBytes_zeroBytes_ne⟩

end Sys2Proof.Machine
end

section
/-! PROOFS. The shared laws of the cipher as a whole: each round of decryption undoes a round of encryption past
SubBytes and ShiftRows, InvMixColumns is linear, and a run of primitive commands folds their block functions. -/

namespace Sys2Proof.Machine

/-! ## Decryption and encryption (43_cipher_core.md R196) -/

/-- The half of a round that needs no key: what the last round of encryption does before its round key. -/
def shiftedSub (b : Block) : Block := shiftRows (subBytes b)

/-- The half of a round of decryption that needs no key. -/
def invShiftedSub (b : Block) : Block := invSubBytes (invShiftRows b)

theorem invShiftedSub_shiftedSub (b : Block) : invShiftedSub (shiftedSub b) = b := by
  rw [invShiftedSub, shiftedSub, invShiftRows_shiftRows, invSubBytes_subBytes]

theorem shiftedSub_invShiftedSub (b : Block) : shiftedSub (invShiftedSub b) = b := by
  rw [invShiftedSub, shiftedSub, subBytes_invSubBytes, shiftRows_invShiftRows]

/-- A decryption round undoes an encryption round, each seen through the half round before it. -/
theorem decryptRound_shiftedSub_encryptRound (k b : Block) :
    decryptRound k (shiftedSub (encryptRound k b)) = shiftedSub b := by
  calc decryptRound k (shiftedSub (encryptRound k b))
      = invMixColumns (addRoundKey (invShiftedSub (shiftedSub (encryptRound k b))) k) := rfl
    _ = invMixColumns (mixColumns (shiftedSub b)) := by
      rw [invShiftedSub_shiftedSub, encryptRound, addRoundKey_cancel, shiftedSub]
    _ = shiftedSub b := invMixColumns_mixColumns _

theorem encryptRound_invShiftedSub_decryptRound (k b : Block) :
    encryptRound k (invShiftedSub (decryptRound k b)) = invShiftedSub b := by
  calc encryptRound k (invShiftedSub (decryptRound k b))
      = addRoundKey (mixColumns (shiftedSub (invShiftedSub (decryptRound k b)))) k := rfl
    _ = addRoundKey (addRoundKey (invShiftedSub b) k) k := by
      rw [shiftedSub_invShiftedSub, decryptRound, mixColumns_invMixColumns, invShiftedSub]
    _ = invShiftedSub b := addRoundKey_cancel _ _

/-- Rounds that undo one another through `view` undo one another in any number, the later first. -/
theorem foldl_reverse_view_foldl {α ι : Type} {view : α → α} {f g : α → ι → α}
    (h : ∀ i x, g (view (f x i)) i = view x) (l : List ι) (x : α) :
    l.reverse.foldl g (view (l.foldl f x)) = view x := by
  induction l generalizing x with
  | nil => rfl
  | cons i rest ih =>
    rw [List.foldl_cons, List.reverse_cons, List.foldl_append, ih, List.foldl_cons, List.foldl_nil, h]

section
variable (rk : RoundKeys) (nr : Nat) (t b : Block)

theorem taesDecrypt_taesEncrypt : taesDecrypt rk nr t (taesEncrypt rk nr t b) = b := by
  simp only [taesDecrypt, taesEncrypt, encryptFinal, decryptFinal, addRoundKey_cancel]
  have hrounds := foldl_reverse_view_foldl (view := shiftedSub)
    (f := fun s r => encryptRound (effRoundKey rk t nr r) s) (g := fun s r => decryptRound (effRoundKey rk t nr r) s)
    (fun _ _ => decryptRound_shiftedSub_encryptRound _ _) (innerRounds nr)
  rw [← shiftedSub, hrounds, ← invShiftedSub, invShiftedSub_shiftedSub, addRoundKey_cancel]

theorem taesEncrypt_taesDecrypt : taesEncrypt rk nr t (taesDecrypt rk nr t b) = b := by
  simp only [taesDecrypt, taesEncrypt, encryptFinal, decryptFinal, addRoundKey_cancel]
  have hrounds := foldl_reverse_view_foldl (view := invShiftedSub)
    (f := fun s r => decryptRound (effRoundKey rk t nr r) s) (g := fun s r => encryptRound (effRoundKey rk t nr r) s)
    (fun _ _ => encryptRound_invShiftedSub_decryptRound _ _) (innerRounds nr).reverse
  rw [List.reverse_reverse] at hrounds
  rw [← invShiftedSub, hrounds, ← shiftedSub, shiftedSub_invShiftedSub, addRoundKey_cancel]

/-! ## The equivalent inverse cipher (43_cipher_core.md R199) -/

theorem invMixColumns_addRoundKey (k : Block) :
    invMixColumns (addRoundKey b k) = addRoundKey (invMixColumns b) (invMixColumns k) := by
  apply bytes_ext
  intro i hi
  have hcolumn : ∀ x, x < 4 → byteAt (addRoundKey b k) (x + 4 * (i / 4)) =
      byteAt b (x + 4 * (i / 4)) ^^^ byteAt k (x + 4 * (i / 4)) := fun x hx => byteAt_addRoundKey b k (by omega)
  rw [byteAt_addRoundKey _ _ hi, byteAt_invMixColumns _ hi, byteAt_invMixColumns _ hi, byteAt_invMixColumns _ hi,
    ← circulant_xor, circulant_congr _ _ _ _ hcolumn]

theorem equivalentInverseCipher_eq_taesDecrypt : equivalentInverseCipher rk nr t b = taesDecrypt rk nr t b := by
  simp only [equivalentInverseCipher, ← invMixColumns_addRoundKey]
  rfl

end

/-! ## The commands that replace BLK (42_round_primitives.md R170-R176) -/

/-- What a command of `steppedEncryption` does to BLK, under the effective round keys `effKey`. -/
def primitiveBlock (effKey : Nat → Block) (b : Block) : Instr → Block
  | .addRk idx => addRoundKey b (effKey idx)
  | .subBytes => subBytes b
  | .shiftRows => shiftRows b
  | .mixColumns => mixColumns b
  | _ => b

/-- The commands of `steppedEncryption` with an index in range. -/
def IsStepped (nr : Nat) (i : Instr) : Prop :=
  i = .subBytes ∨ i = .shiftRows ∨ i = .mixColumns ∨ ∃ idx, idx ≤ nr ∧ i = .addRk idx

/-- What such a command leaves on a block with a context. -/
def steppedState (i : Instr) (s : State) : State :=
  retired .ok { s with blk := primitiveBlock (effRoundKey s.rk s.tweak (contextRounds s)) s.blk i }

theorem exec_of_isStepped {i : Instr} {s : State} (hkeyed : s.keyed = true) (hi : IsStepped (contextRounds s) i) :
    exec i s = .next (steppedState i s) := by
  rcases hi with rfl | rfl | rfl | ⟨idx, hidx, rfl⟩
  · exact exec_subBytes s
  · exact exec_shiftRows s
  · exact exec_mixColumns s
  · rw [exec_addRk_of_keyed hkeyed, if_neg (Nat.not_lt.mpr hidx)]
    rfl

theorem steppedEncryption_isStepped (nr : Nat) : ∀ i ∈ steppedEncryption nr, IsStepped nr i := by
  intro i hi
  simp only [steppedEncryption, List.cons_append, List.mem_cons, List.mem_append, List.mem_flatMap, List.mem_range'_1,
    List.not_mem_nil, or_false] at hi
  unfold IsStepped
  rcases hi with rfl | ⟨r, ⟨_, hr⟩, rfl | rfl | rfl | rfl⟩ | rfl | rfl | rfl
  · exact .inr (.inr (.inr ⟨0, Nat.zero_le nr, rfl⟩))
  · exact .inl rfl
  · exact .inr (.inl rfl)
  · exact .inr (.inr (.inl rfl))
  · exact .inr (.inr (.inr ⟨r, by omega, rfl⟩))
  · exact .inl rfl
  · exact .inr (.inl rfl)
  · exact .inr (.inr (.inr ⟨nr, Nat.le_refl nr, rfl⟩))

/-- The primitives one after another are the pipeline (43_cipher_core.md R193). -/
theorem foldl_steppedEncryption (rk : RoundKeys) (nr : Nat) (t b : Block) :
    (steppedEncryption nr).foldl (primitiveBlock (effRoundKey rk t nr)) b = taesEncrypt rk nr t b := by
  rw [steppedEncryption, List.cons_append, List.foldl_cons, List.foldl_append, List.foldl_flatMap]
  rfl

/-- What a command `w` that writes `blk` to BLK leaves, issued on an idle block. -/
def blockCommandState (w : Word) (blk : Block) (rest : List Event) (s : State) : State :=
  retired .ok { answered .written rest (accept w s) with blk := blk }

section
variable {s : State} {rest : List Event}

theorem run_encrypt (hb : s.busy = false) (hkeyed : s.keyed = true)
    (hp : s.pending = writeEvent 0x04 0x2 :: .complete :: rest) (k : Nat) :
    Host.Core.run Sys2Proof.core (k + 2) s = Host.Core.run Sys2Proof.core k
      (blockCommandState 0x2 (taesEncrypt s.rk (contextRounds s) s.tweak s.blk) rest s) :=
  run_issue hb hp (exec_encrypt_of_keyed hkeyed) k

theorem run_decrypt (hb : s.busy = false) (hkeyed : s.keyed = true)
    (hp : s.pending = writeEvent 0x04 0x3 :: .complete :: rest) (k : Nat) :
    Host.Core.run Sys2Proof.core (k + 2) s = Host.Core.run Sys2Proof.core k
      (blockCommandState 0x3 (taesDecrypt s.rk (contextRounds s) s.tweak s.blk) rest s) :=
  run_issue hb hp (exec_decrypt_of_keyed hkeyed) k

end

/-- The encoder's word, written to CTRL of an idle block, runs its command. -/
theorem run_issue_encode {i : Instr} {s t : State} {rest : List Event} (hi : i.wellFormed = true) (hb : s.busy = false)
    (hp : s.pending = writeEvent 0x04 ((encode i).setWidth 64) :: .complete :: rest)
    (he : exec i (answered .written rest (accept (encode i) s)) = .next t) (k : Nat) :
    Host.Core.run Sys2Proof.core (k + 2) s = Host.Core.run Sys2Proof.core k t := by
  have hword : ((encode i).setWidth 64).setWidth 32 = encode i := by
    rw [BitVec.setWidth_setWidth_of_le _ (by decide), BitVec.setWidth_eq]
  refine run_issue hb hp ?_ k
  rwa [hword, decode_encode hi]

theorem IsStepped.wellFormed {nr : Nat} {i : Instr} (hi : IsStepped nr i) (hnr : nr < 16) : i.wellFormed = true := by
  rcases hi with rfl | rfl | rfl | ⟨idx, hidx, rfl⟩
  · rfl
  · rfl
  · rfl
  · exact decide_eq_true (Nat.lt_of_le_of_lt hidx hnr)

/-- Primitive commands issued one after another on an idle block with a context: BLK goes through their functions, and
the rest is as after one of them. -/
theorem run_issueEvents {s : State} {i : Instr} {commands : List Instr} (hb : s.busy = false) (hkeyed : s.keyed = true)
    (hnr : contextRounds s < 16) (hstepped : ∀ j ∈ i :: commands, IsStepped (contextRounds s) j)
    (hp : s.pending = issueEvents (i :: commands)) :
    ∃ ctrl responses, Host.Core.run Sys2Proof.core (issueEvents (i :: commands)).length s = .next (retired .ok
      { s with
        ctrl := ctrl
        blk := (i :: commands).foldl (primitiveBlock (effRoundKey s.rk s.tweak (contextRounds s))) s.blk
        pending := []
        responses := responses }) := by
  induction commands generalizing s i with
  | nil =>
    have hi := hstepped i List.mem_cons_self
    exact ⟨_, _, run_issue_encode (hi.wellFormed hnr) hb hp (exec_of_isStepped hkeyed hi) 0⟩
  | cons j rest ih =>
    have hi := hstepped i List.mem_cons_self
    have hissue := run_issue_encode (rest := issueEvents (j :: rest)) (hi.wellFormed hnr) hb hp
      (exec_of_isStepped hkeyed hi) (issueEvents (j :: rest)).length
    obtain ⟨ctrl, responses, hrest⟩ := ih
      (s := steppedState i (answered .written (issueEvents (j :: rest)) (accept (encode i) s))) rfl hkeyed hnr
      (fun k hk => hstepped k (List.mem_cons_of_mem i hk)) rfl
    exact ⟨ctrl, responses, hissue.trans hrest⟩

/-! ## The walk of the sequencer (10_state.md R44) -/

/-- In a walk without repetitions the phase after the `k`-th is the next one. -/
theorem phaseAfter_of_nodup {l : List Phase} (hl : l.Nodup) {k : Nat} {ph next : Phase} (hk : l[k]? = some ph)
    (hnext : l[k + 1]? = some next) : phaseAfter ph l = some next := by
  induction l generalizing k with
  | nil => simp at hk
  | cons a rest ih =>
    cases rest with
    | nil => simp at hnext
    | cons b rest =>
      cases k with
      | zero =>
        obtain rfl : a = ph := by simpa using hk
        simpa [phaseAfter] using hnext
      | succ k =>
        obtain ⟨hfresh, hrest⟩ := List.nodup_cons.mp hl
        have hne : a ≠ ph := fun hph => hfresh (hph ▸ List.mem_of_getElem? hk)
        rw [phaseAfter, if_neg hne]
        exact ih hrest hk hnext

/-- The walk of a cipher command over the inner rounds `rounds`. -/
def cipherPhases (rounds : List Nat) : List Phase := .initial :: rounds.map .round ++ [.final]

theorem cipherPhases_nodup {rounds : List Nat} (h : rounds.Nodup) : (cipherPhases rounds).Nodup := by
  have hmap : (rounds.map Phase.round).Nodup := h.map fun _ _ hr => Phase.round.inj hr
  simp [cipherPhases, List.nodup_append, hmap]

theorem innerRounds_nodup (nr : Nat) : (innerRounds nr).Nodup := List.nodup_range'

/-- No command visits a phase twice. -/
theorem phases_nodup (i : Instr) (keyed : Bool) (ksize : Nat) : (phases i keyed ksize).Nodup := by
  cases i with
  | init ksz tz =>
    rw [phases]
    split
    · exact (List.nodup_range' (n := _)).map fun _ _ hi => Phase.kexp.inj hi
    · exact List.nodup_singleton _
  | encrypt =>
    rw [phases]
    split
    · exact cipherPhases_nodup (innerRounds_nodup _)
    · exact List.nodup_singleton _
  | decrypt =>
    rw [phases]
    split
    · exact cipherPhases_nodup (List.nodup_reverse.mpr (innerRounds_nodup _))
    · exact List.nodup_singleton _
  | _ => exact List.nodup_singleton _

theorem advance_of_phaseAfter {s : State} {w : Word} {ph next : Phase} (hseq : s.seq = .run w ph)
    (hnext : phaseAfter ph (phases (decode w) s.keyed s.ksize.toNat) = some next) :
    advance s = { s with seq := .run w next } := by
  simp only [advance, hseq, hnext]

/-- From the `j`-th phase, `k` walks lead to the `j + k`-th. -/
theorem run_walk {s : State} {w : Word} {j k : Nat} {ph last : Phase} (hseq : s.seq = .run w ph)
    (hp : s.pending = List.replicate k .advance)
    (hph : (phases (decode w) s.keyed s.ksize.toNat)[j]? = some ph)
    (hlast : (phases (decode w) s.keyed s.ksize.toNat)[j + k]? = some last) :
    Host.Core.run Sys2Proof.core k s = .next { s with seq := .run w last, pending := [] } := by
  induction k generalizing s j ph with
  | zero =>
    obtain rfl : ph = last := Option.some.inj (hph.symm.trans hlast)
    have hnil : s.pending = [] := hp
    rw [← hseq, ← hnil]
    rfl
  | succ k ih =>
    obtain ⟨next, hnext⟩ : ∃ next, (phases (decode w) s.keyed s.ksize.toNat)[j + 1]? = some next := by
      have hlt : j + (k + 1) < (phases (decode w) s.keyed s.ksize.toNat).length :=
        (List.getElem?_eq_some_iff.mp hlast).1
      exact ⟨_, List.getElem?_eq_getElem (by omega)⟩
    have hadvance : step s = .next { withPending (List.replicate k .advance) s with seq := .run w next } := by
      have hnextPhase := phaseAfter_of_nodup (phases_nodup _ _ _) hph hnext
      rw [step_cons (rest := List.replicate k .advance) hp, handle,
        advance_of_phaseAfter (s := withPending (List.replicate k .advance) s) hseq hnextPhase]
    have hlast' : (phases (decode w) s.keyed s.ksize.toNat)[j + 1 + k]? = some last := by
      rwa [Nat.add_assoc, Nat.add_comm 1 k]
    exact (run_succ hadvance k).trans (ih rfl rfl hnext hlast')

/-! ## The phases of the commands (10_state.md R44) -/

theorem getElem?_range'_one (start : Nat) {n k : Nat} (h : k < n) : (List.range' start n)[k]? = some (start + k) := by
  rw [List.getElem?_range' h, Nat.one_mul]

section
variable {rounds : List Nat}

theorem length_cipherPhases : (cipherPhases rounds).length = rounds.length + 2 := by
  simp [cipherPhases]

theorem cipherPhases_round {r x : Nat} (h : rounds[r]? = some x) : (cipherPhases rounds)[r + 1]? = some (.round x) := by
  have hlt : r < rounds.length := (List.getElem?_eq_some_iff.mp h).1
  rw [cipherPhases, List.cons_append, List.getElem?_cons_succ, List.getElem?_append_left (by simpa using hlt),
    List.getElem?_map, h]
  rfl

theorem cipherPhases_final : (cipherPhases rounds)[rounds.length + 1]? = some .final := by
  simp [cipherPhases]

end

theorem length_innerRounds (nr : Nat) : (innerRounds nr).length = nr - 1 := List.length_range'

theorem innerRounds_at {nr r : Nat} (h : r < nr - 1) : (innerRounds nr)[r]? = some (1 + r) := getElem?_range'_one 1 h

/-- From the back the inner rounds run downwards. -/
theorem reverse_innerRounds_at {nr r : Nat} (h : r < nr - 1) : (innerRounds nr).reverse[r]? = some (nr - (r + 1)) := by
  have hlength : r < (innerRounds nr).length := by rwa [length_innerRounds]
  rw [List.getElem?_reverse hlength, length_innerRounds, innerRounds_at (by omega)]
  congr 1
  omega

end Sys2Proof.Machine
end

section
/-! PROOFS. The obligations about the cipher as a whole, its commands at the registers, and the walk of the sequencer.
-/

namespace Sys2Proof.Machine

/-- Settles O48: the rounds undo one another in either order, whatever their number. -/
theorem decryptInvertsEncrypt : Obligations.DecryptInvertsEncrypt :=
  fun rk nr t b => ⟨taesDecrypt_taesEncrypt rk nr t b, taesEncrypt_taesDecrypt rk nr t b⟩

/-- Settles O49: each command is issued and completes, and the second undoes the first. -/
theorem encryptThenDecryptRestoresTheBlock : Obligations.EncryptThenDecryptRestoresTheBlock := by
  intro s hb hkeyed hp
  have hblk := taesDecrypt_taesEncrypt s.rk (contextRounds s) s.tweak s.blk
  refine (run_encrypt hb hkeyed hp 2).trans ((run_decrypt (s := blockCommandState 0x2 _ _ s) rfl hkeyed rfl 0).trans ?_)
  refine congrArg Host.Outcome.next ((congrArg (blockCommandState 0x3 · [] _) hblk).trans ?_)
  simp only [blockCommandState, retired, answered, accept, hb]
  rfl

/-- Settles O51: InvMixColumns is linear, so it may be applied to a round key instead of after it. -/
theorem equivalentInverseCipherDecrypts : Obligations.EquivalentInverseCipherDecrypts :=
  equivalentInverseCipher_eq_taesDecrypt

/-- Settles O52: the primitives' functions, folded over the stepped commands, are the pipeline of ENCRYPT. -/
theorem steppedPrimitivesEqualEncrypt : Obligations.SteppedPrimitivesEqualEncrypt := by
  intro s nr tr hb hkeyed hshape hp
  obtain ⟨rfl, rfl⟩ := hshape.rounds
  have hnr : contextRounds s < 16 := by
    rcases hshape with ⟨_, hrounds, _⟩ | ⟨_, hrounds, _⟩ | ⟨_, hrounds, _⟩ <;> omega
  have hstepped := steppedEncryption_isStepped (contextRounds s)
  have hblk := foldl_steppedEncryption s.rk (contextRounds s) s.tweak s.blk
  obtain ⟨rest, hcommands⟩ : ∃ rest, steppedEncryption (contextRounds s) = .addRk 0 :: rest := ⟨_, rfl⟩
  rw [hcommands] at hp hstepped hblk
  obtain ⟨ctrl, responses, hrun⟩ := run_issueEvents hb hkeyed hnr hstepped hp
  rw [hblk, ← hp] at hrun
  exact ⟨_, _, hrun, exec_encrypt_of_keyed hkeyed, rfl⟩

/-- Settles O31: no walk repeats a phase, so each phase has one successor; the lists are read off place by place. -/
theorem sequencerWalksThePhasesInOrder : Obligations.SequencerWalksThePhasesInOrder := by
  refine ⟨?walk, ?lists, ?others⟩
  case walk =>
    intro s w k ph hseq hp hph
    have hfirst : (phases (decode w) s.keyed s.ksize.toNat)[0]? = some (firstPhase w s) :=
      List.head?_eq_getElem?.symm.trans (head?_phases w s)
    exact run_walk hseq hp hfirst ((Nat.zero_add k).symm ▸ hph)
  case lists =>
    intro ksz nk nr hsize
    obtain ⟨hvalid, rfl, rfl⟩ : validKeySize ksz = true ∧ nk = keyWordCount ksz ∧ nr = roundCount ksz := by
      rcases hsize with ⟨rfl, rfl, rfl⟩ | ⟨rfl, rfl, rfl⟩ | ⟨rfl, rfl, rfl⟩ <;> decide
    have hinit : ∀ tz keyed ksize, phases (.init ksz tz) keyed ksize =
        (List.range' (keyWordCount ksz) (4 * (roundCount ksz + 1) - keyWordCount ksz)).map .kexp :=
      fun _ _ _ => if_pos hvalid
    have hencrypt : phases .encrypt true ksz = cipherPhases (innerRounds (roundCount ksz)) := rfl
    have hdecrypt : phases .decrypt true ksz = cipherPhases (innerRounds (roundCount ksz)).reverse := rfl
    have hpos : 1 < roundCount ksz := by
      rw [roundCount]
      omega
    have hlength := length_innerRounds (roundCount ksz)
    have hreverse : (innerRounds (roundCount ksz)).reverse.length = roundCount ksz - 1 := by
      rw [List.length_reverse, hlength]
    rw [hencrypt, hdecrypt]
    refine ⟨fun tz keyed ksize => ⟨?initLength, fun k hk => ?initPhase⟩, ?encryptLength, rfl,
      fun r hlo hhi => ?encryptRound, ?encryptFinal, ?decryptLength, rfl, fun r hlo hhi => ?decryptRound,
      ?decryptFinal⟩
    case initLength => rw [hinit, List.length_map, List.length_range']
    case initPhase =>
      rw [hinit, List.getElem?_map, getElem?_range'_one _ hk]
      rfl
    case encryptLength =>
      rw [length_cipherPhases, hlength]
      omega
    case encryptRound =>
      obtain ⟨r, rfl⟩ := Nat.exists_eq_add_of_le' hlo
      rw [cipherPhases_round (innerRounds_at (by omega)), Nat.add_comm]
    case encryptFinal =>
      have hfinal := cipherPhases_final (rounds := innerRounds (roundCount ksz))
      rwa [hlength, Nat.sub_add_cancel hpos.le] at hfinal
    case decryptLength =>
      rw [length_cipherPhases, hreverse]
      omega
    case decryptRound =>
      obtain ⟨r, rfl⟩ := Nat.exists_eq_add_of_le' hlo
      rw [cipherPhases_round (reverse_innerRounds_at (by omega))]
    case decryptFinal =>
      have hfinal := cipherPhases_final (rounds := (innerRounds (roundCount ksz)).reverse)
      rwa [hreverse, Nat.sub_add_cancel hpos.le] at hfinal
  case others =>
    intro i keyed ksize hinit hencrypt hdecrypt
    cases i with
    | init ksz tz => exact absurd rfl (hinit ksz tz)
    | encrypt => exact absurd rfl hencrypt
    | decrypt => exact absurd rfl hdecrypt
    | _ => rfl

end Sys2Proof.Machine
end

section
/-! PROOFS. The shared laws of the mode functions of 48_host_mode.md: where the blocks of a buffer stand, what
stealing keeps, and the two branches of each mode function. -/

namespace Sys2Proof.Machine

/-! ## Blocks of a buffer (48_host_mode.md R242) -/

/-- The block that stands at byte `16b` of a buffer is its block `b`. -/
theorem bufferBlock_append {front : List Byte} {b : Nat} (h : front.length = 16 * b) (x : Block) (rest : List Byte) :
    bufferBlock (front ++ (x.toList ++ rest)) b = x := by
  apply bytes_ext
  intro i hi
  have hx : i < x.toList.length := by simpa using hi
  rw [byteAt_bufferBlock _ _ hi, List.getD_append_right _ _ _ _ (by omega), h, Nat.add_sub_cancel_left,
    List.getD_append _ _ _ _ hx, List.getD_eq_getElem _ _ hx, byteAt_eq_getElem _ hi, Vector.getElem_toList]

theorem toList_bufferBlock {buf : List Byte} {b : Nat} (h : 16 * b + 16 ≤ buf.length) :
    (bufferBlock buf b).toList = (buf.drop (16 * b)).take 16 := by
  apply List.ext_getElem
  · rw [Vector.length_toList, List.length_take, List.length_drop]
    omega
  · intro i hi _
    have hi16 : i < 16 := by simpa using hi
    rw [Vector.getElem_toList, List.getElem_take, List.getElem_drop, ← byteAt_eq_getElem _ hi16,
      byteAt_bufferBlock _ _ hi16, List.getD_eq_getElem _ _ (by omega)]

/-- Appending the next block of a buffer to the blocks before it. -/
theorem take_append_bufferBlock {buf : List Byte} {b : Nat} (h : 16 * b + 16 ≤ buf.length) :
    buf.take (16 * b) ++ (bufferBlock buf b).toList = buf.take (16 * (b + 1)) := by
  rw [toList_bufferBlock h, Nat.mul_succ, List.take_add]

/-! ## The leading blocks (48_host_mode.md R243, R245) -/

section
variable (crypt : Block → Block → Block) (buf : List Byte) (t0 : Block)

theorem leadingBlocks_succ (count : Nat) : leadingBlocks crypt buf t0 (count + 1) =
    leadingBlocks crypt buf t0 count ++ (crypt (tweakAfter t0 count) (bufferBlock buf count)).toList := by
  simp [leadingBlocks, List.range_succ]

theorem length_leadingBlocks (count : Nat) : (leadingBlocks crypt buf t0 count).length = 16 * count := by
  induction count with
  | zero => rfl
  | succ count ih => rw [leadingBlocks_succ, List.length_append, ih, Vector.length_toList, Nat.mul_succ]

end

/-- Decrypting the leading blocks of the output, whatever follows them, gives the input's. -/
theorem leadingBlocks_leadingBlocks {enc dec : Block → Block → Block} (hinverse : ∀ t b, dec t (enc t b) = b)
    (buf : List Byte) (t0 : Block) {count : Nat} (h : 16 * count ≤ buf.length) (rest : List Byte) :
    leadingBlocks dec (leadingBlocks enc buf t0 count ++ rest) t0 count = buf.take (16 * count) := by
  induction count generalizing rest with
  | zero => rfl
  | succ count ih =>
    rw [leadingBlocks_succ, leadingBlocks_succ, List.append_assoc, ih (by omega),
      bufferBlock_append (length_leadingBlocks enc buf t0 count), hinverse, take_append_bufferBlock (by omega)]

/-! ## Stealing (48_host_mode.md R243, R245) -/

theorem take_steal {front : List Byte} (h : front.length ≤ 16) (x : Block) :
    (steal front x).toList.take front.length = front := by
  apply List.ext_getElem
  · rw [List.length_take, Vector.length_toList, Nat.min_eq_left h]
  · intro i _ hi
    have hi16 : i < 16 := by omega
    rw [List.getElem_take, Vector.getElem_toList, ← byteAt_eq_getElem _ hi16, byteAt_steal _ _ hi16,
      List.getD_eq_getElem _ _ hi]

/-- The front of a block, put back over what was put over it, gives the block. -/
theorem steal_take_steal (front : List Byte) (x : Block) : steal (x.toList.take front.length) (steal front x) = x := by
  apply bytes_ext
  intro i hi
  rw [byteAt_steal _ _ hi, byteAt_steal _ _ hi]
  by_cases hfront : i < front.length
  · have htake : i < (x.toList.take front.length).length := by
      rw [List.length_take, Vector.length_toList]
      omega
    rw [List.getD_eq_getElem _ _ htake, List.getElem_take, Vector.getElem_toList, byteAt_eq_getElem _ hi]
  · have htake : (x.toList.take front.length).length ≤ i := by
      rw [List.length_take]
      omega
    rw [List.getD_eq_default _ _ htake, List.getD_eq_default _ _ (by omega)]

/-! ## The sizes of a buffer -/

section
variable {buf : List Byte}

theorem length_trailing (buf : List Byte) : (trailing buf).length = buf.length % 16 := by
  rw [trailing, List.length_drop, fullBlocks]
  omega

theorem fullBlocks_pos (hlong : 16 < buf.length) : 0 < fullBlocks buf := by
  rw [fullBlocks]
  omega

/-- A buffer is its full blocks, the last one named, and its trailing bytes. -/
theorem take_append_trailing (hlong : 16 < buf.length) :
    buf.take (16 * (fullBlocks buf - 1)) ++ (bufferBlock buf (fullBlocks buf - 1)).toList ++ trailing buf = buf := by
  have hpos := fullBlocks_pos hlong
  have hfull : 16 * fullBlocks buf ≤ buf.length := Nat.mul_div_le buf.length 16
  rw [take_append_bufferBlock (by omega), Nat.sub_add_cancel hpos, trailing, List.take_append_drop]

end

/-! ## The branches of the mode functions (48_host_mode.md R243, R245) -/

section
variable (rk : RoundKeys) (nr : Nat) {buf : List Byte} (t0 : Block)

theorem modeEncrypt_of_full (hlong : 16 < buf.length) (hfull : buf.length % 16 = 0) : modeEncrypt rk nr buf t0 =
    .ok (leadingBlocks (taesEncrypt rk nr) buf t0 (fullBlocks buf), tweakAfter t0 (fullBlocks buf)) :=
  (if_neg (Nat.not_le.mpr hlong)).trans (if_pos hfull)

theorem modeDecrypt_of_full (hlong : 16 < buf.length) (hfull : buf.length % 16 = 0) : modeDecrypt rk nr buf t0 =
    .ok (leadingBlocks (taesDecrypt rk nr) buf t0 (fullBlocks buf), tweakAfter t0 (fullBlocks buf)) :=
  (if_neg (Nat.not_le.mpr hlong)).trans (if_pos hfull)

/-- `C'`: the last full block, encrypted in its turn; its front becomes the output's trailing bytes. -/
def stolenCiphertext (buf : List Byte) : Block :=
  taesEncrypt rk nr (tweakAfter t0 (fullBlocks buf - 1)) (bufferBlock buf (fullBlocks buf - 1))

/-- `X`: the last full block, decrypted under the tweak after its own. -/
def stolenPlaintext (buf : List Byte) : Block :=
  taesDecrypt rk nr (tweakAfter t0 (fullBlocks buf)) (bufferBlock buf (fullBlocks buf - 1))

theorem modeEncrypt_of_partial (hlong : 16 < buf.length) (hpartial : buf.length % 16 ≠ 0) : modeEncrypt rk nr buf t0 =
    .ok (leadingBlocks (taesEncrypt rk nr) buf t0 (fullBlocks buf - 1) ++
        (taesEncrypt rk nr (tweakAfter t0 (fullBlocks buf))
          (steal (trailing buf) (stolenCiphertext rk nr t0 buf))).toList ++
        (stolenCiphertext rk nr t0 buf).toList.take (buf.length % 16),
      tweakAfter t0 (fullBlocks buf + 1)) :=
  (if_neg (Nat.not_le.mpr hlong)).trans (if_neg hpartial)

theorem modeDecrypt_of_partial (hlong : 16 < buf.length) (hpartial : buf.length % 16 ≠ 0) : modeDecrypt rk nr buf t0 =
    .ok (leadingBlocks (taesDecrypt rk nr) buf t0 (fullBlocks buf - 1) ++
        (taesDecrypt rk nr (tweakAfter t0 (fullBlocks buf - 1))
          (steal (trailing buf) (stolenPlaintext rk nr t0 buf))).toList ++
        (stolenPlaintext rk nr t0 buf).toList.take (buf.length % 16),
      tweakAfter t0 (fullBlocks buf + 1)) :=
  (if_neg (Nat.not_le.mpr hlong)).trans (if_neg hpartial)

end

/-- `n - 1` leading blocks, one more block and the front of another are as long as the buffer. -/
theorem length_stolen_output {buf : List Byte} (hlong : 16 < buf.length) (crypt : Block → Block → Block)
    (t0 last stolen : Block) :
    (leadingBlocks crypt buf t0 (fullBlocks buf - 1) ++ last.toList ++ stolen.toList.take (buf.length % 16)).length =
      buf.length := by
  rw [List.length_append, List.length_append, length_leadingBlocks, Vector.length_toList, List.length_take,
    Vector.length_toList, fullBlocks]
  omega

theorem length_full_output {buf : List Byte} (hfull : buf.length % 16 = 0) (crypt : Block → Block → Block)
    (t0 : Block) : (leadingBlocks crypt buf t0 (fullBlocks buf)).length = buf.length := by
  rw [length_leadingBlocks, fullBlocks]
  omega

/-- The number of blocks, a partial one counted. -/
theorem blockCount_of_full {buf : List Byte} (hfull : buf.length % 16 = 0) :
    (buf.length + 15) / 16 = fullBlocks buf := by
  rw [fullBlocks]
  omega

theorem blockCount_of_partial {buf : List Byte} (hpartial : buf.length % 16 ≠ 0) :
    (buf.length + 15) / 16 = fullBlocks buf + 1 := by
  rw [fullBlocks]
  omega

/-! ## The round trip (48_host_mode.md R247) -/

section
variable {rk : RoundKeys} {nr : Nat} {pt ct : List Byte} {t0 t1 : Block}

theorem modeDecrypt_modeEncrypt_of_full (hlong : 16 < pt.length) (hfull : pt.length % 16 = 0)
    (h : modeEncrypt rk nr pt t0 = .ok (ct, t1)) : modeDecrypt rk nr ct t0 = .ok (pt, t1) := by
  rw [modeEncrypt_of_full rk nr t0 hlong hfull] at h
  obtain ⟨rfl, rfl⟩ := Prod.mk.inj (Except.ok.inj h)
  have hlength := length_full_output hfull (taesEncrypt rk nr) t0
  have hblocks : fullBlocks (leadingBlocks (taesEncrypt rk nr) pt t0 (fullBlocks pt)) = fullBlocks pt :=
    congrArg (· / 16) hlength
  have hwhole : 16 * fullBlocks pt = pt.length := by
    rw [fullBlocks]
    omega
  have hleading := leadingBlocks_leadingBlocks (taesDecrypt_taesEncrypt rk nr) pt t0 hwhole.le []
  rw [List.append_nil, hwhole, List.take_length] at hleading
  rw [modeDecrypt_of_full rk nr t0 (by omega) (by omega), hblocks, hleading]

theorem modeDecrypt_modeEncrypt_of_partial (hlong : 16 < pt.length) (hpartial : pt.length % 16 ≠ 0)
    (h : modeEncrypt rk nr pt t0 = .ok (ct, t1)) : modeDecrypt rk nr ct t0 = .ok (pt, t1) := by
  rw [modeEncrypt_of_partial rk nr t0 hlong hpartial] at h
  obtain ⟨hct, rfl⟩ := Prod.mk.inj (Except.ok.inj h)
  have hpos := fullBlocks_pos hlong
  have hlength : ct.length = pt.length := hct ▸ length_stolen_output hlong _ _ _ _
  have hblocks : fullBlocks ct = fullBlocks pt := congrArg (· / 16) hlength
  have hfront := length_leadingBlocks (taesEncrypt rk nr) pt t0 (fullBlocks pt - 1)
  have htrailing : trailing ct = (stolenCiphertext rk nr t0 pt).toList.take (trailing pt).length := by
    rw [trailing, hblocks, length_trailing, ← hct]
    refine List.drop_left' ?_
    rw [List.length_append, hfront, Vector.length_toList]
    omega
  rw [List.append_assoc] at hct
  have hstolen : stolenPlaintext rk nr t0 ct = steal (trailing pt) (stolenCiphertext rk nr t0 pt) := by
    rw [stolenPlaintext, hblocks, ← hct, bufferBlock_append hfront, taesDecrypt_taesEncrypt]
  have hleading : leadingBlocks (taesDecrypt rk nr) ct t0 (fullBlocks pt - 1) = pt.take (16 * (fullBlocks pt - 1)) := by
    rw [← hct]
    refine leadingBlocks_leadingBlocks (taesDecrypt_taesEncrypt rk nr) pt t0 ?_ _
    rw [fullBlocks]
    omega
  have hlast : taesDecrypt rk nr (tweakAfter t0 (fullBlocks pt - 1)) (stolenCiphertext rk nr t0 pt) =
      bufferBlock pt (fullBlocks pt - 1) := taesDecrypt_taesEncrypt _ _ _ _
  have hrest : (steal (trailing pt) (stolenCiphertext rk nr t0 pt)).toList.take (pt.length % 16) = trailing pt := by
    rw [← length_trailing]
    refine take_steal ?_ _
    rw [length_trailing]
    omega
  rw [modeDecrypt_of_partial rk nr t0 (by omega) (by omega), hblocks, hstolen, htrailing, steal_take_steal, hleading,
    hlast, hlength, hrest, take_append_trailing hlong]

end

end Sys2Proof.Machine
end

section
/-! PROOFS. The obligations about the mode functions of 48_host_mode.md. -/

namespace Sys2Proof.Machine

/-- Settles O56: without a partial block the output is the leading blocks; with one, its length is that of the stolen
front. -/
theorem modeKeepsLengthAndAdvancesTweak : Obligations.ModeKeepsLengthAndAdvancesTweak := by
  intro rk nr buf t0 hlong
  by_cases hfull : buf.length % 16 = 0
  · rw [blockCount_of_full hfull]
    exact ⟨⟨_, modeEncrypt_of_full rk nr t0 hlong hfull, length_full_output hfull _ t0⟩,
      ⟨_, modeDecrypt_of_full rk nr t0 hlong hfull, length_full_output hfull _ t0⟩⟩
  · rw [blockCount_of_partial hfull]
    exact ⟨⟨_, modeEncrypt_of_partial rk nr t0 hlong hfull, length_stolen_output hlong _ t0 _ _⟩,
      ⟨_, modeDecrypt_of_partial rk nr t0 hlong hfull, length_stolen_output hlong _ t0 _ _⟩⟩

/-- Settles O57: a short input does not encrypt; otherwise each block decrypts in its place, and stealing puts the
front of `C'` back over what was put over it. -/
theorem modeRoundTrip : Obligations.ModeRoundTrip := by
  intro rk nr pt ct t0 t1 h
  by_cases hshort : pt.length ≤ 16
  · rw [modeEncrypt_of_length_le rk nr t0 hshort] at h
    cases h
  · by_cases hfull : pt.length % 16 = 0
    · exact modeDecrypt_modeEncrypt_of_full (Nat.not_le.mp hshort) hfull h
    · exact modeDecrypt_modeEncrypt_of_partial (Nat.not_le.mp hshort) hfull h

end Sys2Proof.Machine
end

section
/-! PROOFS. The shared laws of the host procedures of 48_host_mode.md: what LDBLK, LDTWK, RDBLK, RDTWK and ISSUE do on
an idle block, and what one cipher command between them computes. -/

namespace Sys2Proof.Machine

/-! ## Sixteen bytes as four words (30_encoding.md R108, 20_memory.md R75) -/

/-- The words that a load writes are the words that a read would return. -/
theorem lanesOf_toList (b : Block) (j : Nat) : lanesOf b.toList j = readLanes b j := by
  have hbyte : ∀ i, b.toList.getD i 0 = byteAt b i := fun i => by
    rw [List.getD_eq_getElem?_getD, Vector.getElem?_toList, byteAt]
  rw [lanesOf, readLanes, hbyte, hbyte, hbyte, hbyte]

/-- Four words written one after another are the block they come from. -/
theorem writeLanes_readLanes (a b : Block) :
    writeLanes (writeLanes (writeLanes (writeLanes a 0 (readLanes b 0)) 1 (readLanes b 1)) 2 (readLanes b 2)) 3
      (readLanes b 3) = b := by
  apply bytes_ext
  intro i hi
  have hlane : ∀ j, i / 4 = j → laneByte (readLanes b j) (i % 4) = byteAt b i := by
    rintro _ rfl
    rw [laneByte_readLanes b _ (Nat.mod_lt i (by decide)), Nat.div_add_mod]
  have hword : i / 4 = 0 ∨ i / 4 = 1 ∨ i / 4 = 2 ∨ i / 4 = 3 := by omega
  rw [byteAt_writeLanes _ _ _ hi, byteAt_writeLanes _ _ _ hi, byteAt_writeLanes _ _ _ hi, byteAt_writeLanes _ _ _ hi]
  rcases hword with h | h | h | h <;> simp [h, hlane _ h]

/-- Four words read are the bytes of the block. -/
theorem ofFn_laneByte_readLanes (b : Block) :
    (Vector.ofFn fun i : Fin 16 =>
      laneByte ([readLanes b 0, readLanes b 1, readLanes b 2, readLanes b 3].getD (i.val / 4) 0) (i.val % 4)) = b := by
  apply bytes_ext
  intro i hi
  have hword : [readLanes b 0, readLanes b 1, readLanes b 2, readLanes b 3].getD (i / 4) 0 = readLanes b (i / 4) := by
    have hquarter : i / 4 = 0 ∨ i / 4 = 1 ∨ i / 4 = 2 ∨ i / 4 = 3 := by omega
    rcases hquarter with h | h | h | h <;> rw [h] <;> rfl
  rw [byteAt_ofFn _ hi, hword, laneByte_readLanes b _ (Nat.mod_lt i (by decide)), Nat.div_add_mod]

/-! ## Loads and reads on an idle block (30_encoding.md R108) -/

theorem hostWrite_taken {off : Nat} (hoff : off < 0x100) (ha : off % 4 = 0) (v : Word) {u : State}
    (hb : u.busy = false) : hostWrite off v u = respond .written (writeReg (regAt off) v u) := by
  rw [hostWrite_window hoff ha, busWrite_of_taken (by simp [hb])]

/-- A load of sixteen bytes at `base`, where a word written at `base + 4j` is word `j` of the array that `set` puts
into a state with the given answers. -/
theorem loadBytes_toList {base : Nat} {set : Block → List Response → State}
    (hwrite : ∀ j, j < 4 → ∀ a v rs, hostWrite (base + 4 * j) v (set a rs) = set (writeLanes a j v) (.written :: rs))
    (a b : Block) (rs : List Response) : ∃ rs', loadBytes base b.toList (set a rs) = set b rs' := by
  have hwords : List.range ((b.toList.length + 3) / 4) = [0, 1, 2, 3] := by
    rw [Vector.length_toList]
    rfl
  refine ⟨.written :: .written :: .written :: .written :: rs, ?_⟩
  rw [loadBytes, hwords]
  simp only [List.foldl_cons, List.foldl_nil, lanesOf_toList]
  rw [hwrite 0 (by decide), hwrite 1 (by decide), hwrite 2 (by decide), hwrite 3 (by decide), writeLanes_readLanes]

theorem loadTweak_idle (t : Block) {u : State} (hb : u.busy = false) :
    ∃ rs, loadTweak t u = { u with tweak := t, responses := rs } := by
  refine loadBytes_toList (set := fun a rs => { u with tweak := a, responses := rs }) (fun j hj a v rs => ?_)
    u.tweak t _
  rw [hostWrite_taken (u := { u with tweak := a, responses := rs }) (by omega) (by omega) v hb,
    regAt_of_tweak (by omega) (by omega), Nat.add_sub_cancel_left, Nat.mul_div_cancel_left j (by decide), writeReg,
    respond]

theorem loadBlock_idle (b : Block) {u : State} (hb : u.busy = false) :
    ∃ rs, loadBlock b u = { u with blk := b, responses := rs } := by
  refine loadBytes_toList (set := fun a rs => { u with blk := a, responses := rs }) (fun j hj a v rs => ?_) u.blk b _
  rw [hostWrite_taken (u := { u with blk := a, responses := rs }) (by omega) (by omega) v hb,
    regAt_of_blk (by omega) (by omega), Nat.add_sub_cancel_left, Nat.mul_div_cancel_left j (by decide), writeReg,
    respond]

/-- A read of sixteen bytes of `b` at `base`, whose word `j` stands at `base + 4j`, only logs the answers. -/
theorem readBytes_idle {base : Nat} {b : Block} {u : State} (hb : u.busy = false) (hbase : base + 12 < 0x100)
    (ha : base % 4 = 0) (hvalue : ∀ j, j < 4 → ∀ rs,
      regValue (regAt (base + 4 * j)) { u with responses := rs } = readLanes b j) :
    ∃ rs, readBytes base u = (b, { u with responses := rs }) := by
  have hread : ∀ j, j < 4 → ∀ rs, hostRead (base + 4 * j) { u with responses := rs } =
      (readLanes b j, { u with responses := .data (readLanes b j) :: rs }) := by
    intro j hj rs
    rw [hostRead_idle (s := { u with responses := rs }) (by omega) (by omega) hb, hvalue j hj]
    rfl
  have h0 : hostRead base u = (readLanes b 0, { u with responses := .data (readLanes b 0) :: u.responses }) :=
    hread 0 (by decide) u.responses
  refine ⟨.data (readLanes b 3) :: .data (readLanes b 2) :: .data (readLanes b 1) :: .data (readLanes b 0) ::
    u.responses, ?_⟩
  simp only [readBytes, h0, hread 1 (by decide), hread 2 (by decide), hread 3 (by decide), ofFn_laneByte_readLanes]

theorem readBlock_idle {u : State} (hb : u.busy = false) :
    ∃ rs, readBlock u = (u.blk, { u with responses := rs }) := by
  refine readBytes_idle hb (by decide) (by decide) fun j hj rs => ?_
  rw [regAt_of_blk (by omega) (by omega), Nat.add_sub_cancel_left, Nat.mul_div_cancel_left j (by decide)]
  rfl

theorem readTweak_idle {u : State} (hb : u.busy = false) :
    ∃ rs, readTweak u = (u.tweak, { u with responses := rs }) := by
  refine readBytes_idle hb (by decide) (by decide) fun j hj rs => ?_
  rw [regAt_of_tweak (by omega) (by omega), Nat.add_sub_cancel_left, Nat.mul_div_cancel_left j (by decide)]
  rfl

/-! ## ISSUE on an idle block (30_encoding.md R108, 60_exceptions.md R276) -/

theorem statusWord_err (s : State) : (statusWord s).extractLsb' 4 4 = s.err := by
  have hshift : (statusWord s).extractLsb' 4 4 = (statusWord s >>> 4).setWidth 4 := rfl
  rw [hshift, statusWord_shift4, BitVec.setWidth_setWidth_of_le _ (by decide), BitVec.setWidth_eq]

/-- ISSUE answers the ERR of the command's completion, and leaves its state with the STATUS read logged. -/
theorem issue_of_exec {i : Instr} {u v : State} (hi : i.wellFormed = true) (hb : u.busy = false)
    (he : exec i (respond .written (accept (encode i) u)) = .next v) :
    issue i u = (v.err, respond (.data (statusWord v)) v) := by
  have hwrite : hostWrite 0x04 (encode i) u = respond .written (accept (encode i) u) :=
    hostWrite_taken (by decide) (by decide) _ hb
  have hcomplete : completeCommand (respond .written (accept (encode i) u)) = .next v := by
    rw [completeCommand_busy (respond_busy _ _), respond_ctrl, accept_ctrl, decode_encode hi, he]
  have hidle : v.busy = false := by
    obtain ⟨code, w, rfl, _⟩ := exec_next he
    rfl
  have hstatus : hostRead 0x08 v = (statusWord v, respond (.data (statusWord v)) v) :=
    hostRead_idle (by decide) (by decide) hidle
  rw [issue, hwrite, poll, hcomplete]
  simp only [hstatus, statusWord_err]

theorem issueChecked_of_ok {i : Instr} {u w : State} (hi : i.wellFormed = true) (hb : u.busy = false)
    (he : exec i (respond .written (accept (encode i) u)) = .next (retired .ok w)) :
    issueChecked i u = (.ok (), respond (.data (statusWord (retired .ok w))) (retired .ok w)) := by
  rw [issueChecked, issue_of_exec hi hb he]
  exact if_pos rfl

theorem issueChecked_of_notKeyed {i : Instr} {u w : State} (hi : i.wellFormed = true) (hb : u.busy = false)
    (he : exec i (respond .written (accept (encode i) u)) = .next (retired .notKeyed w)) :
    issueChecked i u =
      (.error (.command 2), respond (.data (statusWord (retired .notKeyed w))) (retired .notKeyed w)) := by
  rw [issueChecked, issue_of_exec hi hb he]
  exact if_neg (show ¬ errNumber .notKeyed = 0 by decide)

/-! ## The context that the procedures keep (48_host_mode.md R248, R249) -/

/-- `u` is idle, with the context of `s` and the tweak `t`. -/
structure ContextAs (s : State) (t : Block) (u : State) : Prop where
  idle : u.busy = false
  keyed : u.keyed = s.keyed
  ksize : u.ksize = s.ksize
  rk : u.rk = s.rk
  tweak : u.tweak = t

theorem contextAs_self {s : State} (hb : s.busy = false) : ContextAs s s.tweak s := ⟨hb, rfl, rfl, rfl, rfl⟩

/-- `i` is a cipher command: with the context of `s` it puts `crypt` of TWEAK and BLK into BLK. -/
structure IsCipher (s : State) (i : Instr) (crypt : Block → Block → Block) : Prop where
  wellFormed : i.wellFormed = true
  exec_eq : ∀ u : State, u.keyed = s.keyed → u.ksize = s.ksize → u.rk = s.rk →
    exec i u = .next (retired .ok { u with blk := crypt u.tweak u.blk })

/-- `i` is a command that fails for want of a context. -/
structure NeedsContext (i : Instr) : Prop where
  wellFormed : i.wellFormed = true
  exec_eq : ∀ u : State, u.keyed = false → exec i u = .next (retired .notKeyed u)

theorem encrypt_needsContext : NeedsContext .encrypt := ⟨rfl, fun _ => exec_encrypt_of_unkeyed⟩

theorem decrypt_needsContext : NeedsContext .decrypt := ⟨rfl, fun _ => exec_decrypt_of_unkeyed⟩

section
variable {s : State} (hkeyed : s.keyed = true)
include hkeyed

theorem encrypt_isCipher : IsCipher s .encrypt (taesEncrypt s.rk (contextRounds s)) := by
  refine ⟨rfl, fun u hk hksize hrk => ?_⟩
  rw [exec_encrypt_of_keyed (hk.trans hkeyed), contextRounds, contextRounds, hksize, hrk]

theorem decrypt_isCipher : IsCipher s .decrypt (taesDecrypt s.rk (contextRounds s)) := by
  refine ⟨rfl, fun u hk hksize hrk => ?_⟩
  rw [exec_decrypt_of_keyed (hk.trans hkeyed), contextRounds, contextRounds, hksize, hrk]

end

section
variable {s u : State} {t : Block}

theorem issueChecked_tweakInc (h : ContextAs s t u) :
    ∃ v, issueChecked .tweakInc u = (.ok (), v) ∧ ContextAs s (incrementTweak t) v := by
  obtain ⟨hidle, hkeyed, hksize, hrk, rfl⟩ := h
  exact ⟨_, issueChecked_of_ok rfl hidle (exec_tweakInc _), rfl, hkeyed, hksize, hrk, rfl⟩

theorem readTweak_contextAs (h : ContextAs s t u) : ∃ v, readTweak u = (t, v) ∧ ContextAs s t v := by
  obtain ⟨hidle, hkeyed, hksize, hrk, rfl⟩ := h
  obtain ⟨rs, hread⟩ := readTweak_idle hidle
  exact ⟨_, hread, hidle, hkeyed, hksize, hrk, rfl⟩

theorem loadTweak_contextAs (h : ContextAs s t u) (t' : Block) : ContextAs s t' (loadTweak t' u) := by
  obtain ⟨hidle, hkeyed, hksize, hrk, _⟩ := h
  obtain ⟨rs, hload⟩ := loadTweak_idle t' hidle
  exact hload ▸ ⟨hidle, hkeyed, hksize, hrk, rfl⟩

/-- LDBLK, a cipher command, RDBLK (48_host_mode.md R248, R249). -/
theorem cryptBlock_of_isCipher {i : Instr} {crypt : Block → Block → Block} (hi : IsCipher s i crypt)
    (h : ContextAs s t u) (b : Block) : ∃ v, cryptBlock i b u = (.ok (crypt t b), v) ∧ ContextAs s t v := by
  obtain ⟨hidle, hkeyed, hksize, hrk, rfl⟩ := h
  obtain ⟨rs, hload⟩ := loadBlock_idle b hidle
  have hissue := issueChecked_of_ok (u := { u with blk := b, responses := rs }) hi.wellFormed hidle
    (hi.exec_eq _ hkeyed hksize hrk)
  rw [cryptBlock, hload, hissue]
  obtain ⟨rs', hread⟩ := readBlock_idle (u := respond (.data (statusWord (retired .ok _))) (retired .ok _)) rfl
  exact ⟨_, congrArg (fun r : Block × State => (Except.ok r.1, r.2)) hread, rfl, hkeyed, hksize, hrk, rfl⟩

/-- The command fails, and nothing is read. -/
theorem cryptBlock_of_needsContext {i : Instr} (hi : NeedsContext i) (hunkeyed : s.keyed = false) (h : ContextAs s t u)
    (b : Block) : ∃ v, cryptBlock i b u = (.error (.command 2), v) ∧ ContextAs s t v := by
  obtain ⟨hidle, hkeyed, hksize, hrk, rfl⟩ := h
  obtain ⟨rs, hload⟩ := loadBlock_idle b hidle
  have hissue := issueChecked_of_notKeyed (u := { u with blk := b, responses := rs }) hi.wellFormed hidle
    (hi.exec_eq _ (hkeyed.trans hunkeyed))
  rw [cryptBlock, hload, hissue]
  exact ⟨_, rfl, rfl, hkeyed, hksize, hrk, rfl⟩

end

end Sys2Proof.Machine
end

section
/-! PROOFS. The shared laws of the host procedures as wholes: their loop over the leading blocks, and what they end in
with a context and without. -/

namespace Sys2Proof.Machine

/-! ## Sequencing (48_host_mode.md R250) -/

@[simp] theorem andThen_ok {α β : Type} (a : α) (u : State) (next : α → State → Except ModeError β × State) :
    andThen (.ok a, u) next = next a u := rfl

@[simp] theorem andThen_error {α β : Type} (e : ModeError) (u : State) (next : α → State → Except ModeError β × State) :
    andThen (.error e, u) next = (.error e, u) := rfl

/-! ## With a context (48_host_mode.md R248, R249) -/

section
variable {s u : State} {i : Instr} {crypt : Block → Block → Block} {t t0 : Block}

theorem cryptAndAdvance_of_isCipher (hi : IsCipher s i crypt) (h : ContextAs s t u) (b : Block) :
    ∃ v, cryptAndAdvance i b u = (.ok (crypt t b), v) ∧ ContextAs s (incrementTweak t) v := by
  obtain ⟨v, hcrypt, hv⟩ := cryptBlock_of_isCipher hi h b
  obtain ⟨w, hinc, hw⟩ := issueChecked_tweakInc hv
  exact ⟨w, by simp [cryptAndAdvance, hcrypt, hinc], hw⟩

/-- The loop from block `b` on, each block under its own tweak. -/
theorem hostLeadingBlocks_from (hi : IsCipher s i crypt) (buf : List Byte) (count : Nat) {b : Nat}
    (h : ContextAs s (tweakAfter t0 b) u) :
    ∃ v, hostLeadingBlocks i buf count b u =
        (.ok ((List.range' b count).flatMap fun j => (crypt (tweakAfter t0 j) (bufferBlock buf j)).toList), v) ∧
      ContextAs s (tweakAfter t0 (b + count)) v := by
  induction count generalizing b u with
  | zero => exact ⟨u, rfl, h⟩
  | succ count ih =>
    obtain ⟨v, hblock, hv⟩ := cryptAndAdvance_of_isCipher hi h (bufferBlock buf b)
    obtain ⟨w, hrest, hw⟩ := ih (b := b + 1) hv
    refine ⟨w, by simp [hostLeadingBlocks, hblock, hrest, List.range'_succ], ?_⟩
    rwa [Nat.add_assoc, Nat.add_comm 1] at hw

theorem hostLeadingBlocks_of_isCipher (hi : IsCipher s i crypt) (buf : List Byte) (count : Nat) (h : ContextAs s t0 u) :
    ∃ v, hostLeadingBlocks i buf count 0 u = (.ok (leadingBlocks crypt buf t0 count), v) ∧
      ContextAs s (tweakAfter t0 count) v := by
  obtain ⟨v, hblocks, hv⟩ := hostLeadingBlocks_from hi buf count (b := 0) h
  rw [← List.range_eq_range'] at hblocks
  rw [Nat.zero_add] at hv
  exact ⟨v, hblocks, hv⟩

end

section
variable {s : State} {buf out : List Byte} {t1 : Block}

theorem incrementTweak_tweakAfter_pred (t0 : Block) {n : Nat} (h : 0 < n) :
    incrementTweak (tweakAfter t0 (n - 1)) = tweakAfter t0 n := by
  obtain ⟨k, rfl⟩ := Nat.exists_eq_add_of_le' h
  rfl

/-- The encryption procedure makes the mode's steps one by one, and advances the tweak with each. -/
theorem modeEncryptHost_of_keyed (hb : s.busy = false) (hkeyed : s.keyed = true)
    (h : modeEncrypt s.rk (contextRounds s) buf s.tweak = .ok (out, t1)) :
    ∃ v, modeEncryptHost buf s = (.ok out, v) ∧ ContextAs s t1 v := by
  have hcipher := encrypt_isCipher hkeyed
  have hself := contextAs_self hb
  by_cases hshort : buf.length ≤ 16
  · rw [modeEncrypt_of_length_le _ _ _ hshort] at h
    cases h
  have hlong : 16 < buf.length := Nat.not_le.mp hshort
  by_cases hfull : buf.length % 16 = 0
  · rw [modeEncrypt_of_full _ _ _ hlong hfull] at h
    obtain ⟨rfl, rfl⟩ := Prod.mk.inj (Except.ok.inj h)
    rw [modeEncryptHost, if_neg hshort, if_pos hfull]
    exact hostLeadingBlocks_of_isCipher hcipher buf _ hself
  · rw [modeEncrypt_of_partial _ _ _ hlong hfull] at h
    obtain ⟨rfl, rfl⟩ := Prod.mk.inj (Except.ok.inj h)
    obtain ⟨u, hleading, hu⟩ := hostLeadingBlocks_of_isCipher hcipher buf (fullBlocks buf - 1) hself
    obtain ⟨v, hstolen, hv⟩ := cryptAndAdvance_of_isCipher hcipher hu (bufferBlock buf (fullBlocks buf - 1))
    rw [incrementTweak_tweakAfter_pred _ (fullBlocks_pos hlong)] at hv
    obtain ⟨w, hlast, hw⟩ := cryptAndAdvance_of_isCipher hcipher hv
      (steal (trailing buf) (stolenCiphertext s.rk (contextRounds s) s.tweak buf))
    rw [← stolenCiphertext] at hstolen
    refine ⟨w, ?_, hw⟩
    rw [modeEncryptHost, if_neg hshort, if_neg hfull, hleading, andThen_ok, hstolen, andThen_ok, hlast, andThen_ok]

/-- The decryption procedure decrypts the last full block under the next tweak, and goes back for the block rebuilt. -/
theorem modeDecryptHost_of_keyed (hb : s.busy = false) (hkeyed : s.keyed = true)
    (h : modeDecrypt s.rk (contextRounds s) buf s.tweak = .ok (out, t1)) :
    ∃ v, modeDecryptHost buf s = (.ok out, v) ∧ ContextAs s t1 v := by
  have hcipher := decrypt_isCipher hkeyed
  have hself := contextAs_self hb
  by_cases hshort : buf.length ≤ 16
  · rw [modeDecrypt_of_length_le _ _ _ hshort] at h
    cases h
  have hlong : 16 < buf.length := Nat.not_le.mp hshort
  by_cases hfull : buf.length % 16 = 0
  · rw [modeDecrypt_of_full _ _ _ hlong hfull] at h
    obtain ⟨rfl, rfl⟩ := Prod.mk.inj (Except.ok.inj h)
    rw [modeDecryptHost, if_neg hshort, if_pos hfull]
    exact hostLeadingBlocks_of_isCipher hcipher buf _ hself
  · rw [modeDecrypt_of_partial _ _ _ hlong hfull] at h
    obtain ⟨rfl, rfl⟩ := Prod.mk.inj (Except.ok.inj h)
    have hnext := incrementTweak_tweakAfter_pred s.tweak (fullBlocks_pos hlong)
    obtain ⟨u1, hleading, hu1⟩ := hostLeadingBlocks_of_isCipher hcipher buf (fullBlocks buf - 1) hself
    obtain ⟨u2, hsave, hu2⟩ := readTweak_contextAs hu1
    obtain ⟨u3, hadvance, hu3⟩ := issueChecked_tweakInc hu2
    rw [hnext] at hu3
    obtain ⟨u4, hstolen, hu4⟩ := cryptBlock_of_isCipher hcipher hu3 (bufferBlock buf (fullBlocks buf - 1))
    rw [← stolenPlaintext] at hstolen
    have hrestored := loadTweak_contextAs hu4 (tweakAfter s.tweak (fullBlocks buf - 1))
    obtain ⟨u5, hlast, hu5⟩ := cryptBlock_of_isCipher hcipher hrestored
      (steal (trailing buf) (stolenPlaintext s.rk (contextRounds s) s.tweak buf))
    obtain ⟨u6, hfirst, hu6⟩ := issueChecked_tweakInc hu5
    rw [hnext] at hu6
    obtain ⟨u7, hsecond, hu7⟩ := issueChecked_tweakInc hu6
    refine ⟨u7, ?_, hu7⟩
    simp only [modeDecryptHost, if_neg hshort, if_neg hfull, hleading, andThen_ok, hsave, hadvance, hstolen, hlast,
      hfirst, hsecond]

end

/-! ## Without a context (48_host_mode.md R250) -/

section
variable {s u : State} {i : Instr} {t : Block}

theorem cryptAndAdvance_of_needsContext (hi : NeedsContext i) (hunkeyed : s.keyed = false) (h : ContextAs s t u)
    (b : Block) : ∃ v, cryptAndAdvance i b u = (.error (.command 2), v) ∧ ContextAs s t v := by
  obtain ⟨v, hcrypt, hv⟩ := cryptBlock_of_needsContext hi hunkeyed h b
  exact ⟨v, by rw [cryptAndAdvance, hcrypt, andThen_error], hv⟩

/-- The loop ends at its first block. -/
theorem hostLeadingBlocks_of_needsContext (hi : NeedsContext i) (hunkeyed : s.keyed = false) (h : ContextAs s t u)
    (buf : List Byte) (b : Nat) {count : Nat} (hcount : 0 < count) :
    ∃ v, hostLeadingBlocks i buf count b u = (.error (.command 2), v) ∧ ContextAs s t v := by
  obtain ⟨k, rfl⟩ := Nat.exists_eq_add_of_le' hcount
  obtain ⟨v, hcrypt, hv⟩ := cryptAndAdvance_of_needsContext hi hunkeyed h (bufferBlock buf b)
  exact ⟨v, by rw [hostLeadingBlocks, hcrypt, andThen_error], hv⟩

end

section
variable {s : State} {buf : List Byte}

/-- Whichever block is the first, its command fails. -/
theorem modeEncryptHost_of_unkeyed (hb : s.busy = false) (hunkeyed : s.keyed = false) (hlong : 16 < buf.length) :
    ∃ v, modeEncryptHost buf s = (.error (.command 2), v) ∧ ContextAs s s.tweak v := by
  have hself := contextAs_self hb
  have hloop := fun count =>
    hostLeadingBlocks_of_needsContext (count := count) encrypt_needsContext hunkeyed hself buf 0
  rw [modeEncryptHost, if_neg (Nat.not_le.mpr hlong)]
  by_cases hfull : buf.length % 16 = 0
  · rw [if_pos hfull]
    exact hloop _ (fullBlocks_pos hlong)
  · rw [if_neg hfull]
    by_cases hleading : 0 < fullBlocks buf - 1
    · obtain ⟨v, hfails, hv⟩ := hloop _ hleading
      exact ⟨v, by rw [hfails, andThen_error], hv⟩
    · obtain ⟨v, hcrypt, hv⟩ := cryptAndAdvance_of_needsContext encrypt_needsContext hunkeyed hself
        (bufferBlock buf (fullBlocks buf - 1))
      have hnone : fullBlocks buf - 1 = 0 := by omega
      rw [hnone] at hcrypt ⊢
      exact ⟨v, by rw [hostLeadingBlocks, andThen_ok, hcrypt, andThen_error], hv⟩

/-- With a block before the last full one the loop fails; else the first command is the advance before the stealing
step, and the second fails. -/
theorem modeDecryptHost_of_unkeyed (hb : s.busy = false) (hunkeyed : s.keyed = false) (hlong : 16 < buf.length) :
    ∃ v, modeDecryptHost buf s = (.error (.command 2), v) ∧
      ContextAs s (if buf.length / 16 = 1 ∧ buf.length % 16 ≠ 0 then incrementTweak s.tweak else s.tweak) v := by
  have hself := contextAs_self hb
  have hloop := fun count =>
    hostLeadingBlocks_of_needsContext (count := count) decrypt_needsContext hunkeyed hself buf 0
  rw [modeDecryptHost, if_neg (Nat.not_le.mpr hlong)]
  by_cases hfull : buf.length % 16 = 0
  · rw [if_pos hfull, if_neg fun h => h.2 hfull]
    exact hloop _ (fullBlocks_pos hlong)
  · rw [if_neg hfull]
    by_cases hleading : 0 < fullBlocks buf - 1
    · have hmore : ¬ (buf.length / 16 = 1 ∧ buf.length % 16 ≠ 0) := by
        rw [fullBlocks] at hleading
        omega
      rw [if_neg hmore]
      obtain ⟨v, hfails, hv⟩ := hloop _ hleading
      exact ⟨v, by rw [hfails, andThen_error], hv⟩
    · have hone : buf.length / 16 = 1 ∧ buf.length % 16 ≠ 0 := by
        rw [fullBlocks] at hleading
        omega
      have hnone : fullBlocks buf - 1 = 0 := by omega
      obtain ⟨u, hsave, hu⟩ := readTweak_contextAs hself
      obtain ⟨v, hadvance, hv⟩ := issueChecked_tweakInc hu
      obtain ⟨w, hcrypt, hw⟩ := cryptBlock_of_needsContext decrypt_needsContext hunkeyed hv (bufferBlock buf 0)
      rw [if_pos hone, hnone]
      exact ⟨w, by simp only [hostLeadingBlocks, andThen_ok, hsave, hadvance, hcrypt, andThen_error], hw⟩

end

end Sys2Proof.Machine
end

section
/-! PROOFS. The obligations about the host procedures of 48_host_mode.md. -/

namespace Sys2Proof.Machine

/-- Settles O58: each procedure is its mode function step by step, and keeps the context while the tweak advances. -/
theorem hostProceduresComputeTheMode : Obligations.HostProceduresComputeTheMode := by
  intro s buf out t1 hb hkeyed
  refine ⟨fun h => ?encrypt, fun h => ?decrypt⟩
  case encrypt =>
    obtain ⟨v, hrun, hv⟩ := modeEncryptHost_of_keyed hb hkeyed h
    exact ⟨congrArg Prod.fst hrun, (congrArg (·.2.tweak) hrun).trans hv.tweak⟩
  case decrypt =>
    obtain ⟨v, hrun, hv⟩ := modeDecryptHost_of_keyed hb hkeyed h
    exact ⟨congrArg Prod.fst hrun, (congrArg (·.2.tweak) hrun).trans hv.tweak⟩

/-- Settles O59: the first cipher command fails and ends the procedure; before it at most one TWEAK_INC has run. -/
theorem hostProceduresStopAtTheFirstError : Obligations.HostProceduresStopAtTheFirstError := by
  intro s buf hb hunkeyed hlong
  obtain ⟨v, hencrypt, hv⟩ := modeEncryptHost_of_unkeyed hb hunkeyed hlong
  obtain ⟨w, hdecrypt, hw⟩ := modeDecryptHost_of_unkeyed hb hunkeyed hlong
  exact ⟨⟨congrArg Prod.fst hencrypt, (congrArg (·.2.tweak) hencrypt).trans hv.tweak⟩,
    ⟨congrArg Prod.fst hdecrypt, (congrArg (·.2.tweak) hdecrypt).trans hw.tweak⟩⟩

end Sys2Proof.Machine
end
